-- ==== Sys2Proof/Word.lean ====
section
/-! DEFINITION. The values the block computes with (00_scope.md R13, R14): bytes, 32-bit words, line levels, the two
channels, and the pair "one value per channel" that the spec writes `X[c]`. Every value is unsigned (R13). -/

namespace Sys2Proof

/-- A byte, 8 bits, bit 0 the least significant (00_scope.md R13). -/
abbrev Byte := BitVec 8

/-- A 32-bit command word, counter or response VALUE (00_scope.md R7, 30_encoding.md R58, R60). -/
abbrev Word := BitVec 32

/-- The 16-bit operand field ARG of a command word (30_encoding.md R58, R59). -/
abbrev Arg := BitVec 16

/-- The level of one line: 1 is `true`, 0 is `false` (10_state.md R20, R21, R36). -/
abbrev Level := Bool

/-- The two channels (00_scope.md R5, 10_state.md R19). -/
inductive Channel where
  | primary    -- channel 0
  | secondary  -- channel 1
deriving DecidableEq, Repr

/-- One value for each channel: what the spec writes `X[0]` and `X[1]`. Each channel has its own (10_state.md R19). -/
structure Both (α : Type) where
  primary   : α
  secondary : α
deriving DecidableEq, Repr

/-- `X[c]`. -/
def Both.get {α : Type} (x : Both α) : Channel → α
  | .primary => x.primary
  | .secondary => x.secondary

/-- `X[c] <- v`: the other channel's value is untouched. -/
def Both.set {α : Type} (x : Both α) (c : Channel) (v : α) : Both α :=
  match c with
  | .primary => { x with primary := v }
  | .secondary => { x with secondary := v }

/-- The same value for both channels. -/
def Both.same {α : Type} (v : α) : Both α := ⟨v, v⟩

end Sys2Proof
end

