-- ==== Sys2Proof/Config.lean ====
section
/-! DEFINITION. The implementation parameters (00_scope.md R5 to R12): what is fixed for the life of one block and differs
between blocks. The spec says the model takes them as arguments (10_state.md R17, 70_reset_and_hazards.md R166); a state
carries them in its field `cfg`, which no step writes, so a statement about every state is a statement about every
parameter choice (notes/assumptions/5.md). -/

namespace Sys2Proof

/-- The parameters of one block. NCH = 2 and NBITS = 8 are constants and stand in the types (00_scope.md R5), and so
does CNT_W = 32 (R7). T_STROBE_MIN (R11) is a parameter of a realisation that nothing in the event model reads
(notes/assumptions/12.md). -/
structure Config where
  /-- CAP, the capacity of each channel queue in bytes (R6). -/
  cap        : Nat
  /-- HAS_TX: is the transmitter unit present (R8)? -/
  hasTx      : Bool
  /-- TX_DEPTH, the most bytes a transmitter sample buffer holds (R9). -/
  txDepth    : Nat
  /-- T_SETUP, in ticks (R10). -/
  tSetup     : Nat
  /-- T_PULSE, in ticks (R10). -/
  tPulse     : Nat
  /-- T_DEAD, in ticks (R10). -/
  tDead      : Nat
  /-- TICKS_PER_MS (R10). -/
  ticksPerMs : Nat
  /-- LOOPBACK: are the transmitter's outputs wired to the receiver's inputs (R12)? -/
  loopback   : Bool
deriving DecidableEq, Repr

/-- The legal values of the parameters (00_scope.md R6, R9, R10): CAP ≥ 1, 1 ≤ TX_DEPTH ≤ 2^32 − 1, and each timing
parameter ≥ 1. No order between the interval lengths is required (40_transmitter.md R81). -/
abbrev Config.Legal (c : Config) : Prop :=
  1 ≤ c.cap ∧ (1 ≤ c.txDepth ∧ c.txDepth ≤ 4294967295) ∧
    1 ≤ c.tSetup ∧ 1 ≤ c.tPulse ∧ 1 ≤ c.tDead ∧ 1 ≤ c.ticksPerMs

/-- The parameters of `State.reset`: the defaults of 00_scope.md R6, R8, R9, R12, and for the four OPEN timing parameters,
which have no default, the value 1 that the spec's own programs take where they say nothing else (95_test_vectors.md
section 3). DESIGN CHOICE, notes/assumptions/5.md: no statement rests on these values. -/
def Config.bench : Config where
  cap        := 1024
  hasTx      := true
  txDepth    := 1024
  tSetup     := 1
  tPulse     := 1
  tDead      := 1
  ticksPerMs := 1
  loopback   := false

/-- FREE VALUE (notes/assumptions/9.md): what a 32-bit VALUE field shows for a length of 2^32 or more. The spec bounds
neither CAP (00_scope.md R6) nor says what GET_COUNT then answers (42_read_interface.md R122). It has no body: nothing can
be proved of its value. -/
opaque Config.lengthPastWord : Nat → Word

end Sys2Proof
end

