-- ==== Sys2Proof/Syntax.lean ====
section
/-! DEFINITION. What can be asked of the block: the 13 command forms and 5 line events of spec/opcode_table.json (one
constructor of `Instr` a row), the words that carry them, and the source lines of the assembler (30_encoding.md). -/

namespace Sys2Proof

/-- One constructor per row of spec/opcode_table.json. An operand has the width of its field, so every operand value the
field can hold is an instruction (30_encoding.md R59): a channel or selector that names nothing is answered INVAL, not
rejected by decoding. -/
inductive Instr where
  | read (n : Arg)                      -- READ n: blocking read of up to n bytes (42_read_interface.md R112)
  | readNb (n : Arg)                    -- READ.NB n: the same, never waiting (R112, R115)
  | select (v : Arg)                    -- SELECT v (R119)
  | query                               -- QUERY (R120)
  | getCount (c : Arg)                  -- GET_COUNT c (R122)
  | getEdges                            -- GET_EDGES (R123)
  | getDrops (c : Arg)                  -- GET_DROPS c (R124)
  | txLoadP (b : Byte)                  -- TX_LOAD_P b (40_transmitter.md R84)
  | txLoadS (b : Byte)                  -- TX_LOAD_S b (R85)
  | txPeriod (p : Arg)                  -- TX_PERIOD p (R86)
  | txStart                             -- TX_START (R87)
  | txStop                              -- TX_STOP (R88)
  | txQuery (sel : Arg)                 -- TX_QUERY s (R89)
  | setDin (ch : Channel) (v : Level)   -- SET_DIN ch, v (41_edge_decoder.md R100)
  | setStrobe (v : Level)               -- SET_STROBE v (R101)
  | cancel                              -- CANCEL (42_read_interface.md R114)
  | reset                               -- RESET (70_reset_and_hazards.md R149)
  | tick                                -- TICK (40_transmitter.md R91)
deriving DecidableEq, Repr

/-- One thing the world outside presents to the block: a word at one of its two ports (30_encoding.md R58, R61, R75), or
the choice that agent RDC moves next (00_scope.md R16: any enabled step of any agent may be next). -/
inductive Input where
  | command (w : Word)        -- agent HOST: a 32-bit command word at the command port
  | event (w : BitVec 8)      -- agent ENV: an 8-bit line-event word
  | rdc                       -- agent RDC's turn: COMPLETE, if it is enabled (42_read_interface.md R113)
deriving DecidableEq, Repr

/-- One source line of the assembler (30_encoding.md R76 to R79): a mnemonic with its operands as the numbers written. A
number may be too large for its field; `Line.wellFormed` (WellFormed.lean) is the assembler's check. -/
inductive Line where
  | read (n : Nat)
  | readNb (n : Nat)
  | select (v : Nat)
  | query
  | getCount (c : Nat)
  | getEdges
  | getDrops (c : Nat)
  | txLoadP (b : Nat)
  | txLoadS (b : Nat)
  | txPeriod (ms : Nat)
  | txStart
  | txStop
  | txQuery (sel : Nat)
  | setDin (c v : Nat)
  | setStrobe (v : Nat)
  | cancel
  | reset
  | tick
  | edge (b0 b1 : Nat)          -- pseudo-instruction EDGE (R77)
  | sendByte (x0 x1 : Nat)      -- pseudo-instruction SENDBYTE (R78)
  | sendByteMsb (x0 x1 : Nat)   -- pseudo-instruction SENDBYTE.MSB (R78)
  | ticks (n : Nat)             -- pseudo-instruction TICKS (R79)
deriving DecidableEq, Repr

end Sys2Proof
end

