-- ==== Sys2Proof/Machine/State.lean ====
section
/-! DEFINITION. The state of one block (10_state.md R17 to R38), its power-on values (70_reset_and_hazards.md R148), and the
reasons a step can stop. -/

namespace Sys2Proof.Machine

open Sys2Proof

/-- PORT, the host command port (10_state.md R31). -/
inductive Port where
  | idle
  | pending (ch : Channel) (n : Arg)  -- a blocking READ of n bytes waits on the channel it latched
deriving DecidableEq, Repr

/-- TX_PH, the phase of the transmitter sequencer (10_state.md R35). -/
inductive Phase where
  | setup
  | pulse
  | dead
  | gap
deriving DecidableEq, Repr

/-- ST, the outcome of a command (30_encoding.md R62); its codes are `statusCode` in Flags.lean. The reserved codes 8 to 15
are never produced, so they are no constructors. -/
inductive Status where
  | ok
  | wouldBlock
  | restart
  | inval
  | precond
  | illegal
  | full
  | busy
deriving DecidableEq, Repr

/-- A response (ST, VALUE, DATA) of the command port (30_encoding.md R60). -/
structure Response where
  st    : Status
  value : Word
  data  : List Byte
deriving DecidableEq, Repr

/-- The receiver: the sampler, the decoder, the two queues and the read interface (10_state.md R20 to R31). -/
structure Rx where
  /-- DIN[c], the level of each data input (R20). -/
  din      : Both Level
  /-- STROBE_IN, the level of the strobe input, and the previous level for the next edge (R21). -/
  strobeIn : Level
  /-- ACC[c] (R22). -/
  acc      : Both Byte
  /-- POS[c], 0..7; the transient 8 inside EDGE is never stored (R23). -/
  pos      : Both (BitVec 3)
  /-- Q[c], oldest byte first (R26). -/
  q        : Both (List Byte)
  /-- SEL (R28). -/
  sel      : Channel
  /-- EDGE_CNT (R29). -/
  edgeCnt  : Word
  /-- DROP_CNT[c] (R30). -/
  dropCnt  : Both Word
  /-- PORT (R31). -/
  port     : Port
deriving DecidableEq, Repr

/-- The transmitter (10_state.md R32 to R36). Where HAS_TX is false the spec says it does not exist: then nothing reads
or writes it (notes/assumptions/6.md). -/
structure Tx where
  /-- TXBUF[c], the sample buffer of each channel, index 0 first (R32). -/
  buf       : Both (List Byte)
  /-- PERIOD in milliseconds; 0 means not set (R33). -/
  period    : Arg
  /-- TX_RUN (R34). -/
  run       : Bool
  /-- TX_K, the sample index (R35; notes/assumptions/19.md). -/
  k         : Nat
  /-- TX_I, the bit index (R35). -/
  i         : BitVec 3
  /-- TX_PH (R35). -/
  ph        : Phase
  /-- TX_TMR, the ticks left in the phase (R35; notes/assumptions/19.md). -/
  tmr       : Nat
  /-- DOUT[c], the level driven on each data output (R36). -/
  dout      : Both Level
  /-- STROBE_OUT (R36). -/
  strobeOut : Level
  /-- TX_OE: are the three outputs driven (R36)? -/
  oe        : Bool
deriving DecidableEq, Repr

/-- One block with what surrounds it; several links are several blocks (notes/assumptions/13.md). `rx` and `tx` are all the architectural state (10_state.md R17); `cfg` is the
block's parameters, which no step writes; `inputs` and `responses` are the model's own record of the two sides of the
block's ports. -/
structure State where
  /-- The parameters of this block (00_scope.md R5 to R12; 10_state.md R17: they are not state). -/
  cfg       : Config
  /-- The receiver. -/
  rx        : Rx
  /-- The transmitter. -/
  tx        : Tx
  /-- What the agents HOST, ENV and RDC still have to present, the next first (00_scope.md R16; notes/assumptions/1.md). -/
  inputs    : List Input
  /-- Every response delivered to HOST so far, the oldest first (00_scope.md R15, 30_encoding.md R60;
  notes/assumptions/4.md). No instruction reads it (10_state.md R38). -/
  responses : List Response
deriving DecidableEq, Repr

/-- What stops the block. No command or event of the spec traps (60_exceptions.md R128): both constructors are raised only
in states that no run reaches. -/
inductive Fault where
  /-- Raised by TICK, and named in a branch of TX_START that no state takes, where TxRead would read past the end of a sample
  buffer. SAFE: 20_memory.md R43 requires of the caller that the index is in range, and in every reachable state it is
  (10_state.md R35). -/
  | txReadPastEnd
  /-- Raised by TICK where TX_TMR is 0 in a running transmitter and would go below 0. SAFE: TX_TMR ≥ 1 holds at every TICK
  while running (40_transmitter.md R91). -/
  | txTimerUnderflow
deriving DecidableEq, Repr

/-- What the model does not accept. -/
inductive Refusal where
  /-- An instruction that has no meaning in the model, by its mnemonic. SAFE: the model says nothing of it. No arm of
  `exec` answers it. -/
  | notModelled (mnemonic : String)
  /-- Raised by the fetch of an event word that 30_encoding.md R61 does not list: "the model refuses it (a refusal, not a
  fault and not a no-op)" (R74). SAFE. -/
  | reservedEvent
  /-- Raised by SET_DIN and SET_STROBE from ENV where LOOPBACK is true: only the wiring drives the receiver's inputs then,
  "and any such event is refused" (40_transmitter.md R96). SAFE. -/
  | lineDrivenByLoopback
deriving DecidableEq, Repr

/-- The receiver at power-on (70_reset_and_hazards.md R148). -/
def Rx.powerOn : Rx where
  din      := Both.same false
  strobeIn := false
  acc      := Both.same 0
  pos      := Both.same 0
  q        := Both.same []
  sel      := .primary
  edgeCnt  := 0
  dropCnt  := Both.same 0
  port     := .idle

/-- The transmitter at power-on (70_reset_and_hazards.md R148). -/
def Tx.powerOn : Tx where
  buf       := Both.same []
  period    := 0
  run       := false
  k         := 0
  i         := 0
  ph        := .setup
  tmr       := 0
  dout      := Both.same false
  strobeOut := false
  oe        := false

/-- A block with parameters `c` before any event: every element holds its power-on value (70_reset_and_hazards.md R148),
nothing is waiting at its ports and nothing has been answered. -/
def State.powerOn (c : Config) : State where
  cfg       := c
  rx        := Rx.powerOn
  tx        := Tx.powerOn
  inputs    := []
  responses := []

/-- The power-on state of the block with the parameters of the spec's programs (95_test_vectors.md section 3). -/
def State.reset : State := State.powerOn Config.bench

end Sys2Proof.Machine
end

