-- ==== Sys2Proof/Machine/Operands.lean ====
section
/-! DEFINITION. The operand forms of the commands (30_encoding.md R59, R63) and the zero-extended values that responses
carry (R60). No operand is sign-extended. -/

namespace Sys2Proof.Machine

open Sys2Proof

/-- A channel operand: 0 names Primary and 1 Secondary; any other value names none (30_encoding.md R63). -/
def channelOperand (a : Arg) : Option Channel :=
  if a = 0 then some .primary
  else if a = 1 then some .secondary
  else none

/-- zext_32 of a channel number (42_read_interface.md R120). -/
def channelValue : Channel → Word
  | .primary => 0
  | .secondary => 1

/-- zext_32 of one bit (40_transmitter.md R89). -/
def bitValue (b : Bool) : Word :=
  (BitVec.ofBool b).setWidth 32

/-- A length in a VALUE field (40_transmitter.md R89, 42_read_interface.md R122). A length that 32 bits cannot hold has no
stated VALUE: it is free (notes/assumptions/9.md). -/
def lengthValue (n : Nat) : Word :=
  if n < 4294967296 then BitVec.ofNat 32 n else Config.lengthPastWord n

end Sys2Proof.Machine
end

