-- ==== Sys2Proof/Machine/Ops.lean ====
section
/-! DEFINITION. The named operations every meaning is built from: delivering a response, the storage primitives
(20_memory.md R41 to R43), the line inputs and the decoder step (41_edge_decoder.md), the sequencer's phase entries
(40_transmitter.md R90) and the loopback wiring (R96).

The block has no traps (60_exceptions.md R128). What it has in place of taking an exception is `fail`: one shared operation,
which saves nothing and goes nowhere; there is no return from it. -/

namespace Sys2Proof.Machine

open Sys2Proof

/-- The outcome of a meaning. -/
abbrev Result := Host.Outcome State Fault Refusal

/-! ### Responses -/

/-- `respond(st, value, data)` (00_scope.md R15). -/
def State.respond (s : State) (st : Status) (value : Word) (data : List Byte) : State :=
  { s with responses := s.responses ++ [⟨st, value, data⟩] }

/-- The state after `fail ST`: the response is (ST, 0, []) and no state element changes (60_exceptions.md R128). -/
def State.failed (s : State) (st : Status) : State :=
  s.respond st 0 []

/-- `fail ST` ends the step. -/
def fail (st : Status) (s : State) : Result :=
  .next (s.failed st)

/-- `respond(OK, value, [])` ends the step. -/
def answer (value : Word) (s : State) : Result :=
  .next (s.respond .ok value [])

/-! ### The queues -/

/-- What QPush returns (20_memory.md R41). -/
inductive PushResult where
  | appended
  | dropped
deriving DecidableEq, Repr

/-- Does QPush have room? -/
def pushResult (cap : Nat) (c : Channel) (r : Rx) : PushResult :=
  if (r.q.get c).length < cap then .appended else .dropped

/-- The receiver after `QPush(c, b)` (20_memory.md R41): b is appended if the queue has room and dropped otherwise. -/
def qPush (cap : Nat) (c : Channel) (b : Byte) (r : Rx) : Rx :=
  match pushResult cap c r with
  | .appended => { r with q := r.q.set c (r.q.get c ++ [b]) }
  | .dropped => r

/-- The bytes `QPop(c, k)` returns, oldest first (20_memory.md R42). -/
def qFront (c : Channel) (k : Nat) (r : Rx) : List Byte :=
  (r.q.get c).take k

/-- The receiver after `QPop(c, k)` (20_memory.md R42). -/
def qPop (c : Channel) (k : Nat) (r : Rx) : Rx :=
  { r with q := r.q.set c ((r.q.get c).drop k) }

/-- How many bytes a read of up to n takes: k = min(n, len(Q[ch])) (42_read_interface.md R112, R113, R118). -/
def readLength (ch : Channel) (n : Arg) (r : Rx) : Nat :=
  min n.toNat (r.q.get ch).length

/-- The one dequeue that READ and COMPLETE share: `data <- QPop(ch, k)` and `respond(OK, k, data)` (42_read_interface.md
R112, R113), atomic (20_memory.md R50). -/
def deliver (ch : Channel) (n : Arg) (s : State) : State :=
  let k := readLength ch n s.rx
  { s with rx := qPop ch k s.rx }.respond .ok (BitVec.ofNat 32 k) (qFront ch k s.rx)

/-! ### Line inputs and the decoder step -/

/-- `DIN[ch] <- v` (41_edge_decoder.md R100). -/
def Rx.setDin (r : Rx) (ch : Channel) (v : Level) : Rx :=
  { r with din := r.din.set ch v }

/-- `DROP_CNT[c] <- (DROP_CNT[c] + 1) mod 2^32` (41_edge_decoder.md R102). -/
def Rx.countDrop (r : Rx) (c : Channel) : Rx :=
  { r with dropCnt := r.dropCnt.set c (r.dropCnt.get c + 1) }

/-- `ACC[c] <- a; POS[c] <- p` (41_edge_decoder.md R102). -/
def Rx.setAcc (r : Rx) (c : Channel) (a : Byte) (p : BitVec 3) : Rx :=
  { r with acc := r.acc.set c a, pos := r.pos.set c p }

/-- ACC[c] with the bit that DIN[c] carries ORed in at POS[c] (41_edge_decoder.md R102). -/
def accumulated (c : Channel) (r : Rx) : Byte :=
  r.acc.get c ||| (BitVec.ofBool (r.din.get c)).setWidth 8 <<< (r.pos.get c).toNat

/-- The emission of a completed byte: it is appended, or dropped and counted (41_edge_decoder.md R102, R104). -/
def emit (cap : Nat) (c : Channel) (b : Byte) (r : Rx) : Rx :=
  match pushResult cap c r with
  | .appended => qPush cap c b r
  | .dropped => r.countDrop c

/-- The body of EDGE for one channel (41_edge_decoder.md R102). `p`, 1..8, is the 4-bit intermediate: the position 8 is
never stored (10_state.md R23). -/
def edgeChannel (cap : Nat) (c : Channel) (r : Rx) : Rx :=
  let a := accumulated c r
  let p := (r.pos.get c).toNat + 1
  if p = 8 then (emit cap c a r).setAcc c 0 0
  else r.setAcc c a (BitVec.ofNat 3 p)

/-- `EDGE_CNT <- (EDGE_CNT + 1) mod 2^32` (41_edge_decoder.md R102). -/
def Rx.countEdge (r : Rx) : Rx :=
  { r with edgeCnt := r.edgeCnt + 1 }

/-- EDGE, the decoder step (41_edge_decoder.md R102): one edge counted, then both channels, in one step (20_memory.md R49). -/
def edge (cap : Nat) (r : Rx) : Rx :=
  edgeChannel cap .secondary (edgeChannel cap .primary r.countEdge)

/-- `SET_STROBE(v)` (41_edge_decoder.md R101): EDGE on a rise from 0 to 1, and the level is recorded. -/
def setStrobe (cap : Nat) (v : Level) (r : Rx) : Rx :=
  { (if r.strobeIn = false ∧ v = true then edge cap r else r) with strobeIn := v }

/-! ### The transmitter -/

/-- `TxAppend(c, b)` (20_memory.md R43). -/
def txAppend (c : Channel) (b : Byte) (t : Tx) : Tx :=
  { t with buf := t.buf.set c (t.buf.get c ++ [b]) }

/-- `TxRead(c, k)` (20_memory.md R43): it requires k < len(TXBUF[c]), and has no value otherwise. -/
def txRead (c : Channel) (k : Nat) (t : Tx) : Option Byte :=
  (t.buf.get c)[k]?

/-- `EnterSetup(k, i)` (40_transmitter.md R90): both data outputs take bit i of sample k. None where TxRead has no value. -/
def enterSetup (cfg : Config) (k : Nat) (i : BitVec 3) (t : Tx) : Option Tx :=
  match txRead .primary k t, txRead .secondary k t with
  | some b0, some b1 =>
    some { t with
      i := i, dout := ⟨b0.getLsbD i.toNat, b1.getLsbD i.toNat⟩, strobeOut := false, ph := .setup, tmr := cfg.tSetup }
  | _, _ => none

/-- `EnterPulse` (40_transmitter.md R90). -/
def enterPulse (cfg : Config) (t : Tx) : Tx :=
  { t with strobeOut := true, ph := .pulse, tmr := cfg.tPulse }

/-- `EnterDead` (40_transmitter.md R90). -/
def enterDead (cfg : Config) (t : Tx) : Tx :=
  { t with strobeOut := false, ph := .dead, tmr := cfg.tDead }

/-- `EnterGap` (40_transmitter.md R90): PERIOD × TICKS_PER_MS ticks. -/
def enterGap (cfg : Config) (t : Tx) : Tx :=
  { t with ph := .gap, tmr := t.period.toNat * cfg.ticksPerMs }

/-- What the sequencer enters when a phase runs out (40_transmitter.md R91). -/
def nextPhase (cfg : Config) (t : Tx) : Option Tx :=
  match t.ph with
  | .setup => some (enterPulse cfg t)
  | .pulse => some (enterDead cfg t)
  | .dead => if t.i.toNat < 7 then enterSetup cfg t.k (t.i + 1) t else some (enterGap cfg t)
  | .gap =>
    let k := (t.k + 1) % (t.buf.get .primary).length
    enterSetup cfg k 0 { t with k := k }

/-- The transmitter stopped: released and zeroed outputs, empty buffers, the sequencer at rest; PERIOD is kept
(40_transmitter.md R88). What a receiver then sees on a released line is not modelled (notes/assumptions/11.md). -/
def txStopped (t : Tx) : Tx :=
  { t with
    run := false, oe := false, dout := Both.same false, strobeOut := false, buf := Both.same []
    k := 0, i := 0, ph := .setup, tmr := 0 }

/-! ### The loopback wiring -/

/-- One data line of `Propagate`: SET_DIN if the levels differ (40_transmitter.md R96). -/
def propagateDin (c : Channel) (v : Level) (r : Rx) : Rx :=
  if r.din.get c ≠ v then r.setDin c v else r

/-- `Propagate` (40_transmitter.md R96): the data lines before the strobe; SET_STROBE may run EDGE. -/
def propagate (cap : Nat) (dout : Both Level) (strobe : Level) (r : Rx) : Rx :=
  let r := propagateDin .secondary (dout.get .secondary) (propagateDin .primary (dout.get .primary) r)
  if r.strobeIn ≠ strobe then setStrobe cap strobe r else r

/-- `if LOOPBACK: Propagate`, the end of TX_START and of a TICK that entered a phase (40_transmitter.md R87, R91). -/
def propagateIfLooped (s : State) : State :=
  if s.cfg.loopback then { s with rx := propagate s.cfg.cap s.tx.dout s.tx.strobeOut s.rx } else s

/-! ### The read-completion unit -/

/-- Is COMPLETE enabled: PORT = PENDING(ch, n) and Q[ch] not empty (42_read_interface.md R113)? -/
def completeEnabled (s : State) : Bool :=
  match s.rx.port with
  | .idle => false
  | .pending ch _ => decide (0 < (s.rx.q.get ch).length)

/-- COMPLETE (42_read_interface.md R113): the response of the READ that went PENDING. It is a step only where it is
enabled. -/
def complete (s : State) : State :=
  match s.rx.port with
  | .idle => s
  | .pending ch n => deliver ch n { s with rx := { s.rx with port := .idle } }

/-- RDC's turn: COMPLETE if it is enabled, and otherwise no step of RDC, so nothing changes (DESIGN CHOICE,
notes/assumptions/3.md and 17.md). -/
def rdcTurn (s : State) : State :=
  if completeEnabled s then complete s else s

end Sys2Proof.Machine
end

