-- ==== Sys2Proof/Machine/Line.lean ====
section
/-! DEFINITION. The line events of the receiver: SET_DIN and SET_STROBE (41_edge_decoder.md). How they stand for pins that
break the setup time or the strobe's minimum: notes/assumptions/10.md and 12.md; LOOPBACK without a transmitter: 18.md. -/

namespace Sys2Proof.Machine

open Sys2Proof

/-- SET_DIN (41_edge_decoder.md R100). ENV's is refused where LOOPBACK is true (40_transmitter.md R96). -/
def execSetDin (ch : Channel) (v : Level) (s : State) : Result :=
  if s.cfg.loopback then .refused .lineDrivenByLoopback
  else .next { s with rx := s.rx.setDin ch v }

/-- SET_STROBE (41_edge_decoder.md R101). ENV's is refused where LOOPBACK is true (40_transmitter.md R96). -/
def execSetStrobe (v : Level) (s : State) : Result :=
  if s.cfg.loopback then .refused .lineDrivenByLoopback
  else .next { s with rx := setStrobe s.cfg.cap v s.rx }

end Sys2Proof.Machine
end

