-- ==== Sys2Proof/Machine/Observe.lean ====
section
/-! DEFINITION. The observation commands GET_COUNT, GET_EDGES and GET_DROPS (42_read_interface.md R122 to R124). -/

namespace Sys2Proof.Machine

open Sys2Proof

/-- GET_COUNT (42_read_interface.md R122). -/
def execGetCount (c : Arg) (s : State) : Result :=
  match channelOperand c with
  | none => fail .inval s
  | some ch => answer (lengthValue (s.rx.q.get ch).length) s

/-- GET_EDGES (42_read_interface.md R123). -/
def execGetEdges (s : State) : Result :=
  answer s.rx.edgeCnt s

/-- GET_DROPS (42_read_interface.md R124); reading does not clear the counter. -/
def execGetDrops (c : Arg) (s : State) : Result :=
  match channelOperand c with
  | none => fail .inval s
  | some ch => answer (s.rx.dropCnt.get ch) s

end Sys2Proof.Machine
end

