-- ==== Sys2Proof/Machine/Read.lean ====
section
/-! DEFINITION. READ, READ.NB and CANCEL (42_read_interface.md R112, R114, R115). -/

namespace Sys2Proof.Machine

open Sys2Proof

/-- `READ(nb, n)` (42_read_interface.md R112), its checks in its order. HOST issues it only while PORT is IDLE
(notes/assumptions/14.md). -/
def readCommand (nb : Bool) (n : Arg) (s : State) : Result :=
  if n = 0 then fail .precond s
  else if 0 < (s.rx.q.get s.rx.sel).length then .next (deliver s.rx.sel n s)
  else if nb then fail .wouldBlock s
  else .next { s with rx := { s.rx with port := .pending s.rx.sel n } }

/-- READ: on an empty queue it holds the port and answers nothing yet. -/
def execRead (n : Arg) (s : State) : Result :=
  readCommand false n s

/-- READ.NB: it never goes PENDING (42_read_interface.md R115). -/
def execReadNb (n : Arg) (s : State) : Result :=
  readCommand true n s

/-- CANCEL (42_read_interface.md R114): it ends a pending READ with RESTART and removes no byte; otherwise it has no effect
and is not remembered. -/
def execCancel (s : State) : Result :=
  match s.rx.port with
  | .idle => .next s
  | .pending _ _ => .next ({ s with rx := { s.rx with port := .idle } }.failed .restart)

end Sys2Proof.Machine
end

