-- ==== Sys2Proof/Machine/Reset.lean ====
section
/-! DEFINITION. The RESET event (70_reset_and_hazards.md R149). -/

namespace Sys2Proof.Machine

open Sys2Proof

/-- The receiver after RESET: everything but the three line levels, which follow the lines. A pending READ is discarded. -/
def rxReset (r : Rx) : Rx :=
  { r with
    acc := Both.same 0, pos := Both.same 0, q := Both.same [], dropCnt := Both.same 0
    sel := .primary, edgeCnt := 0, port := .idle }

/-- The transmitter after RESET: stopped as by TX_STOP, and PERIOD cleared too. -/
def txReset (t : Tx) : Tx :=
  { txStopped t with period := 0 }

/-- RESET (70_reset_and_hazards.md R149): no response and no strobe edge, even where STROBE_IN is 1. -/
def execReset (s : State) : Result :=
  .next { s with rx := rxReset s.rx, tx := if s.cfg.hasTx then txReset s.tx else s.tx }

end Sys2Proof.Machine
end

