-- ==== Sys2Proof/Machine/Select.lean ====
section
/-! DEFINITION. SELECT and QUERY (42_read_interface.md R119, R120). -/

namespace Sys2Proof.Machine

open Sys2Proof

/-- SELECT (42_read_interface.md R119). -/
def execSelect (v : Arg) (s : State) : Result :=
  match channelOperand v with
  | none => fail .inval s
  | some c => answer 0 { s with rx := { s.rx with sel := c } }

/-- QUERY (42_read_interface.md R120). -/
def execQuery (s : State) : Result :=
  answer (channelValue s.rx.sel) s

end Sys2Proof.Machine
end

