-- ==== Sys2Proof/Machine/Transmit.lean ====
section
/-! DEFINITION. The transmitter commands and TICK (40_transmitter.md R84 to R91). Each command is answered ILLEGAL where
HAS_TX is false (R83, 30_encoding.md R72); the decoder already rejects its word there. -/

namespace Sys2Proof.Machine

open Sys2Proof

/-- `TX_LOAD_P` and `TX_LOAD_S` but for the buffer they append to (40_transmitter.md R84, R85), checks in order. -/
def txLoad (c : Channel) (b : Byte) (s : State) : Result :=
  if s.cfg.hasTx = false then fail .illegal s
  else if s.tx.run then fail .busy s
  else if (s.tx.buf.get c).length = s.cfg.txDepth then fail .full s
  else answer 0 { s with tx := txAppend c b s.tx }

/-- TX_LOAD_P (40_transmitter.md R84). -/
def execTxLoadP (b : Byte) (s : State) : Result :=
  txLoad .primary b s

/-- TX_LOAD_S (40_transmitter.md R85). -/
def execTxLoadS (b : Byte) (s : State) : Result :=
  txLoad .secondary b s

/-- TX_PERIOD (40_transmitter.md R86). -/
def execTxPeriod (p : Arg) (s : State) : Result :=
  if s.cfg.hasTx = false then fail .illegal s
  else if s.tx.run then fail .busy s
  else if p = 0 then fail .precond s
  else answer 0 { s with tx := { s.tx with period := p } }

/-- TX_START (40_transmitter.md R87): every check runs before any output changes; the response comes before the loopback
propagation. Both buffers hold sample 0 where the checks pass, so the fault of the last line is never answered. -/
def execTxStart (s : State) : Result :=
  if s.cfg.hasTx = false then fail .illegal s
  else if s.tx.run then fail .busy s
  else if (s.tx.buf.get .secondary).length ≠ (s.tx.buf.get .primary).length then fail .precond s
  else if (s.tx.buf.get .primary).length = 0 then fail .precond s
  else if s.tx.period = 0 then fail .precond s
  else match enterSetup s.cfg 0 0 { s.tx with run := true, oe := true, k := 0 } with
    | some t => .next (propagateIfLooped ({ s with tx := t }.respond .ok 0 []))
    | none => .fault .txReadPastEnd

/-- TX_STOP (40_transmitter.md R88): accepted in every phase, always OK, and no line event. -/
def execTxStop (s : State) : Result :=
  if s.cfg.hasTx = false then fail .illegal s
  else answer 0 { s with tx := txStopped s.tx }

/-- TX_QUERY (40_transmitter.md R89). -/
def execTxQuery (sel : Arg) (s : State) : Result :=
  if s.cfg.hasTx = false then fail .illegal s
  else if sel = 0 then answer (bitValue s.tx.run) s
  else if sel = 1 then answer (lengthValue (s.tx.buf.get .primary).length) s
  else if sel = 2 then answer (lengthValue (s.tx.buf.get .secondary).length) s
  else if sel = 3 then answer (s.tx.period.setWidth 32) s
  else fail .inval s

/-- TICK (40_transmitter.md R91). A tick that leaves TX_TMR > 0 ends there; one that ends a phase enters the next and then
propagates where LOOPBACK is true (DEDUCED, notes/assumptions/7.md). Both faults are for states that no run reaches
(notes/assumptions/8.md). -/
def execTick (s : State) : Result :=
  if s.cfg.hasTx = false ∨ s.tx.run = false then .next s
  else if s.tx.tmr = 0 then .fault .txTimerUnderflow
  else if 0 < s.tx.tmr - 1 then .next { s with tx := { s.tx with tmr := s.tx.tmr - 1 } }
  else match nextPhase s.cfg { s.tx with tmr := s.tx.tmr - 1 } with
    | some t => .next (propagateIfLooped { s with tx := t })
    | none => .fault .txReadPastEnd

end Sys2Proof.Machine
end

