-- ==== Sys2Proof/Machine/Dispatch.lean ====
section
/-! DEFINITION. The meaning of each instruction: one arm per constructor of Instr. -/

namespace Sys2Proof.Machine

open Sys2Proof

def exec (i : Instr) (s : State) : Host.Outcome State Fault Refusal :=
  match i with
  | .read n => Sys2Proof.Machine.execRead n s
  | .readNb n => Sys2Proof.Machine.execReadNb n s
  | .select v => Sys2Proof.Machine.execSelect v s
  | .query => Sys2Proof.Machine.execQuery s
  | .getCount c => Sys2Proof.Machine.execGetCount c s
  | .getEdges => Sys2Proof.Machine.execGetEdges s
  | .getDrops c => Sys2Proof.Machine.execGetDrops c s
  | .txLoadP b => Sys2Proof.Machine.execTxLoadP b s
  | .txLoadS b => Sys2Proof.Machine.execTxLoadS b s
  | .txPeriod p => Sys2Proof.Machine.execTxPeriod p s
  | .txStart => Sys2Proof.Machine.execTxStart s
  | .txStop => Sys2Proof.Machine.execTxStop s
  | .txQuery sel => Sys2Proof.Machine.execTxQuery sel s
  | .setDin ch v => Sys2Proof.Machine.execSetDin ch v s
  | .setStrobe v => Sys2Proof.Machine.execSetStrobe v s
  | .cancel => Sys2Proof.Machine.execCancel s
  | .reset => Sys2Proof.Machine.execReset s
  | .tick => Sys2Proof.Machine.execTick s

end Sys2Proof.Machine
end

