-- ==== Sys2Proof/WellFormed.lean ====
section
/-! DEFINITION. The two static checks of the spec: which instructions a block with given parameters has (40_transmitter.md
R83), and which source lines the assembler accepts (30_encoding.md R76). Operand values that a field can hold but that name
nothing (a channel 2, a read of 0 bytes) are well-formed: the command answers INVAL or PRECOND. -/

namespace Sys2Proof

/-- Is this one of the six transmitter commands (40_transmitter.md R83)? TICK is an event, not one of them: it is accepted,
and has no effect, without a transmitter (R91). -/
def Instr.needsTx : Instr → Bool
  | .txLoadP _ => true
  | .txLoadS _ => true
  | .txPeriod _ => true
  | .txStart => true
  | .txStop => true
  | .txQuery _ => true
  | .read _ => false
  | .readNb _ => false
  | .select _ => false
  | .query => false
  | .getCount _ => false
  | .getEdges => false
  | .getDrops _ => false
  | .setDin _ _ => false
  | .setStrobe _ => false
  | .cancel => false
  | .reset => false
  | .tick => false

/-- Does a block have this instruction? The transmitter commands "exist only when HAS_TX is true" (40_transmitter.md R83). -/
def Instr.wellFormed (hasTx : Bool) (i : Instr) : Bool :=
  hasTx || !i.needsTx

/-- Does every operand of the line fit its field (30_encoding.md R76: the assembler rejects n > 65535, b > 255, a level other
than 0 or 1)? A channel operand of a command is a 16-bit ARG (R63); that of SET_DIN is the 1-bit CH (R61). -/
def Line.wellFormed : Line → Bool
  | .read n => n ≤ 65535
  | .readNb n => n ≤ 65535
  | .select v => v ≤ 65535
  | .query => true
  | .getCount c => c ≤ 65535
  | .getEdges => true
  | .getDrops c => c ≤ 65535
  | .txLoadP b => b ≤ 255
  | .txLoadS b => b ≤ 255
  | .txPeriod ms => ms ≤ 65535
  | .txStart => true
  | .txStop => true
  | .txQuery sel => sel ≤ 65535
  | .setDin c v => c ≤ 1 && v ≤ 1
  | .setStrobe v => v ≤ 1
  | .cancel => true
  | .reset => true
  | .tick => true
  | .edge b0 b1 => b0 ≤ 1 && b1 ≤ 1
  | .sendByte x0 x1 => x0 ≤ 255 && x1 ≤ 255
  | .sendByteMsb x0 x1 => x0 ≤ 255 && x1 ≤ 255
  | .ticks _ => true

end Sys2Proof
end

