-- ==== Sys2Proof/Decode.lean ====
section
/-! DEFINITION. The decoder of command words (30_encoding.md R67) and of line-event words (R61, R74), both total and
rejecting by name, and after them the encoder (R58, R61, R76). -/

namespace Sys2Proof

/-- Why a word names no instruction. -/
inductive Reject where
  | reservedOpcode    -- OP ∈ {0x0, 0x7, 0xD, 0xF} (30_encoding.md R68)
  | noTransmitter     -- a transmitter opcode and HAS_TX is false (R72)
  | reservedZ         -- Z ≠ 0 (R69)
  | modeBit           -- M = 1 on an opcode other than READ (R70)
  | unusedArg         -- ARG ≠ 0 on a command with no operand (R71)
  | argHigh           -- ARG[15:8] ≠ 0 on TX_LOAD_P or TX_LOAD_S (R64)
  | reservedEvent     -- an event word not listed in R61 (R74)
  | notAWord          -- RDC's turn: no word, so nothing to decode
deriving DecidableEq, Repr

/-! ### The fields of a word -/

/-- OP, bits 31:28 (30_encoding.md R58). -/
def fieldOp (w : Word) : BitVec 4 := w.extractLsb' 28 4

/-- M, bit 27. -/
def fieldM (w : Word) : Bool := w.getLsbD 27

/-- Z, bits 26:16. -/
def fieldZ (w : Word) : BitVec 11 := w.extractLsb' 16 11

/-- ARG, bits 15:0. -/
def fieldArg (w : Word) : Arg := w.extractLsb' 0 16

/-- ARG[15:8]. -/
def argHi (arg : Arg) : Byte := arg.extractLsb' 8 8

/-- ARG[7:0], the byte operand (30_encoding.md R64). -/
def argLo (arg : Arg) : Byte := arg.extractLsb' 0 8

/-- The reserved opcodes (30_encoding.md R68). -/
def isReservedOp (op : BitVec 4) : Bool :=
  op == 0x0#4 || op == 0x7#4 || op == 0xD#4 || op == 0xF#4

/-- The transmitter opcodes (30_encoding.md R72). -/
def isTxOp (op : BitVec 4) : Bool :=
  op == 0x8#4 || op == 0x9#4 || op == 0xA#4 || op == 0xB#4 || op == 0xC#4 || op == 0xE#4

/-- The opcodes of the commands that take no operand (30_encoding.md R71). -/
def isNoArgOp (op : BitVec 4) : Bool :=
  op == 0x3#4 || op == 0x5#4 || op == 0xB#4 || op == 0xC#4

/-- The opcodes whose operand is a byte (30_encoding.md R64). -/
def isByteOp (op : BitVec 4) : Bool :=
  op == 0x8#4 || op == 0x9#4

/-- The opcode map (30_encoding.md R65), for a word that passed the checks. The reserved opcodes have no entry. -/
def commandOf (op : BitVec 4) (m : Bool) (arg : Arg) : Option Instr :=
  if op = 0x1#4 then (if m then some (.readNb arg) else some (.read arg))
  else if op = 0x2#4 then some (.select arg)
  else if op = 0x3#4 then some .query
  else if op = 0x4#4 then some (.getCount arg)
  else if op = 0x5#4 then some .getEdges
  else if op = 0x6#4 then some (.getDrops arg)
  else if op = 0x8#4 then some (.txLoadP (argLo arg))
  else if op = 0x9#4 then some (.txLoadS (argLo arg))
  else if op = 0xA#4 then some (.txPeriod arg)
  else if op = 0xB#4 then some .txStart
  else if op = 0xC#4 then some .txStop
  else if op = 0xE#4 then some (.txQuery arg)
  else none

/-- The port's decoding procedure (30_encoding.md R67), its checks in its order. Every rejection is answered ILLEGAL. -/
def decodeCommand (hasTx : Bool) (w : Word) : Except Reject Instr :=
  let op := fieldOp w
  let m := fieldM w
  let arg := fieldArg w
  if isReservedOp op then .error .reservedOpcode
  else if isTxOp op && !hasTx then .error .noTransmitter
  else if fieldZ w ≠ 0 then .error .reservedZ
  else if m && op ≠ 0x1#4 then .error .modeBit
  else if isNoArgOp op && arg ≠ 0 then .error .unusedArg
  else if isByteOp op && argHi arg ≠ 0 then .error .argHigh
  else match commandOf op m arg with
    | some i => .ok i
    | none => .error .reservedOpcode

/-- Bit CH of an event word as a channel: 0 is Primary and 1 is Secondary (30_encoding.md R61, 10_state.md R19). -/
def channelOfBit (b : Bool) : Channel :=
  if b then .secondary else .primary

/-- The line event an 8-bit event word names (30_encoding.md R61); every other word is reserved (R74). -/
def decodeEvent (w : BitVec 8) : Except Reject Instr :=
  let evt := w.extractLsb' 4 4
  let z := w.extractLsb' 2 2
  let ch := w.getLsbD 1
  let v := w.getLsbD 0
  if z ≠ 0 then .error .reservedEvent
  else if evt = 0x1#4 then .ok (.setDin (channelOfBit ch) v)
  else if evt = 0x2#4 then (if ch then .error .reservedEvent else .ok (.setStrobe v))
  else if evt = 0x3#4 then (if ch || v then .error .reservedEvent else .ok .cancel)
  else if evt = 0x4#4 then (if ch || v then .error .reservedEvent else .ok .reset)
  else if evt = 0x5#4 then (if ch || v then .error .reservedEvent else .ok .tick)
  else .error .reservedEvent

/-- The instruction a word names: the port it arrives on says its length and its format (30_encoding.md R75). -/
def decode (hasTx : Bool) : Input → Except Reject Instr
  | .command w => decodeCommand hasTx w
  | .event w => decodeEvent w
  | .rdc => .error .notAWord

/-- A word of spec/opcode_table.json as a number: a row of 8 bits is an event word, any other row a command word. The table
lists every row of a block with a transmitter, so HAS_TX is true here (notes/assumptions/16.md). -/
def decodeTableWord (nbits w : Nat) : Option Instr :=
  let x : Input := if nbits = 8 then .event (BitVec.ofNat 8 w) else .command (BitVec.ofNat 32 w)
  match decode true x with
  | .ok i => some i
  | .error _ => none

/-! ### The encoder -/

/-- A command word, "the sum OP<<28 | M<<27 | ARG" (30_encoding.md R76); Z is 0 (R58). -/
def commandWord (op : BitVec 4) (m : Bool) (arg : Arg) : Word :=
  op.setWidth 32 <<< 28 ||| (BitVec.ofBool m).setWidth 32 <<< 27 ||| arg.setWidth 32

/-- An event word (30_encoding.md R61): EVT in bits 7:4, Z = 0, CH in bit 1 and V in bit 0. -/
def eventWord (evt : BitVec 4) (ch v : Bool) : BitVec 8 :=
  evt.setWidth 8 <<< 4 ||| (BitVec.ofBool ch).setWidth 8 <<< 1 ||| (BitVec.ofBool v).setWidth 8

/-- A byte operand as ARG: ARG[15:8] = 0 (30_encoding.md R64). -/
def byteArg (b : Byte) : Arg := b.setWidth 16

/-- A channel as bit CH: Primary is 0 and Secondary is 1. -/
def bitOfChannel : Channel → Bool
  | .primary => false
  | .secondary => true

/-- The word of an instruction, at the port it is presented to (30_encoding.md R61, R65, R76). -/
def encode : Instr → Input
  | .read n => .command (commandWord 0x1#4 false n)
  | .readNb n => .command (commandWord 0x1#4 true n)
  | .select v => .command (commandWord 0x2#4 false v)
  | .query => .command (commandWord 0x3#4 false 0)
  | .getCount c => .command (commandWord 0x4#4 false c)
  | .getEdges => .command (commandWord 0x5#4 false 0)
  | .getDrops c => .command (commandWord 0x6#4 false c)
  | .txLoadP b => .command (commandWord 0x8#4 false (byteArg b))
  | .txLoadS b => .command (commandWord 0x9#4 false (byteArg b))
  | .txPeriod p => .command (commandWord 0xA#4 false p)
  | .txStart => .command (commandWord 0xB#4 false 0)
  | .txStop => .command (commandWord 0xC#4 false 0)
  | .txQuery sel => .command (commandWord 0xE#4 false sel)
  | .setDin ch v => .event (eventWord 0x1#4 (bitOfChannel ch) v)
  | .setStrobe v => .event (eventWord 0x2#4 false v)
  | .cancel => .event (eventWord 0x3#4 false false)
  | .reset => .event (eventWord 0x4#4 false false)
  | .tick => .event (eventWord 0x5#4 false false)

end Sys2Proof
end

