-- ==== Sys2Proof/Machine/Fetch.lean ====
section
/-! DEFINITION. How the next step is chosen from what the agents have to present (00_scope.md R16, 30_encoding.md R79,
42_read_interface.md R125). The block has no program counter (10_state.md R18): the words arrive at its two ports. -/

namespace Sys2Proof.Machine

open Sys2Proof

/-- What the fetch finds. -/
inductive Fetched where
  | run (i : Instr) (s : State)   -- run i at s, the state with its word taken off the inputs
  | settled (s : State)           -- the step is over: an ILLEGAL word answered, RDC's turn taken, or the block at rest
  | refused (r : Refusal)         -- an event word the model does not accept
deriving DecidableEq, Repr

/-- Perform one input that is not held up, at the state it has been taken off. A command word that decoding rejects is
answered ILLEGAL and changes no state (30_encoding.md R67); a reserved event word is refused (R74). -/
def present (x : Input) (s : State) : Fetched :=
  match x with
  | .rdc => .settled (rdcTurn s)
  | .command w =>
    match decodeCommand s.cfg.hasTx w with
    | .ok i => .run i s
    | .error _ => .settled (s.failed .illegal)
  | .event w =>
    match decodeEvent w with
    | .ok i => .run i s
    | .error _ => .refused .reservedEvent

/-- The first input that does not come from HOST, and the inputs without it. -/
def firstOfEnv : List Input → Option (Input × List Input)
  | [] => none
  | .command w :: rest =>
    match firstOfEnv rest with
    | none => none
    | some (x, others) => some (x, .command w :: others)
  | .event w :: rest => some (.event w, rest)
  | .rdc :: rest => some (.rdc, rest)

/-- The next step of the block. Inputs are taken in order. HOST may issue a command only while PORT = IDLE
(42_read_interface.md R125): a command that finds the port held waits, and meanwhile COMPLETE fires if it is enabled, or else
the other agents go on with their first input (the producer never waits for the port, 20_memory.md R52); if they have none
the port stays held and nothing changes (70_reset_and_hazards.md R160). With no input at all, only COMPLETE can fire. -/
def fetch (s : State) : Fetched :=
  match s.inputs with
  | [] => .settled (rdcTurn s)
  | .command w :: rest =>
    if s.rx.port = .idle then present (.command w) { s with inputs := rest }
    else if completeEnabled s then .settled (complete s)
    else
      match firstOfEnv rest with
      | none => .settled s
      | some (x, others) => present x { s with inputs := .command w :: others }
  | .event w :: rest => present (.event w) { s with inputs := rest }
  | .rdc :: rest => present .rdc { s with inputs := rest }

/-- s with one more input, to be presented before those that wait. -/
def State.presentFirst (s : State) (x : Input) : State :=
  { s with inputs := x :: s.inputs }

/-- A word of spec/opcode_table.json as the input that presents it: 8 bits are an event word, any other width a command
word (30_encoding.md R75). -/
def tableInput (nbits w : Nat) : Input :=
  if nbits = 8 then .event (BitVec.ofNat 8 w) else .command (BitVec.ofNat 32 w)

end Sys2Proof.Machine
end

