-- ==== Sys2Proof/Machine/Step.lean ====
section
/-! DEFINITION. One step of the block. -/

namespace Sys2Proof.Machine

open Sys2Proof

/-- One atomic step of one agent (00_scope.md R16). -/
def step (s : State) : Host.Outcome State Fault Refusal :=
  match fetch s with
  | .run i t => exec i t
  | .settled t => .next t
  | .refused r => .refused r

/-- s with a word of spec/opcode_table.json as the next input: where PORT is idle, or the word is an event, the next step
runs it (notes/assumptions/1.md). -/
def State.withFetchWord (s : State) (nbits w : Nat) : State :=
  s.presentFirst (tableInput nbits w)

end Sys2Proof.Machine
end

