-- ==== Sys2Proof/Machine/Asm.lean ====
section
/-! DEFINITION. The assembler (30_encoding.md R76 to R79): what a source line expands to, the words of a program, and the
reading of a line's text. The text conventions that R76 leaves open are in notes/assumptions/15.md. -/

namespace Sys2Proof.Machine

open Sys2Proof

/-! ### Expansion -/

/-- `EDGE b0, b1` (30_encoding.md R77): one rising edge that samples b0 on Primary and b1 on Secondary. -/
def edgeInstrs (b0 b1 : Level) : List Instr :=
  [.setDin .primary b0, .setDin .secondary b1, .setStrobe false, .setStrobe true]

/-- The edges of two bytes whose bits are sent in the order `order` (30_encoding.md R78). -/
def sendBits (order : List Nat) (x0 x1 : Byte) : List Instr :=
  order.flatMap fun i => edgeInstrs (x0.getLsbD i) (x1.getLsbD i)

/-- `SENDBYTE x0, x1`: least-significant bit first (30_encoding.md R78). -/
def sendByteInstrs (x0 x1 : Byte) : List Instr :=
  sendBits [0, 1, 2, 3, 4, 5, 6, 7] x0 x1

/-- `SENDBYTE.MSB x0, x1`: the same edges in the reverse order (30_encoding.md R78). -/
def sendByteMsbInstrs (x0 x1 : Byte) : List Instr :=
  sendBits [7, 6, 5, 4, 3, 2, 1, 0] x0 x1

/-- The instructions of a source line whose operands fit their fields (30_encoding.md R76 to R79). -/
def lineInstrs : Line → List Instr
  | .read n => [.read (BitVec.ofNat 16 n)]
  | .readNb n => [.readNb (BitVec.ofNat 16 n)]
  | .select v => [.select (BitVec.ofNat 16 v)]
  | .query => [.query]
  | .getCount c => [.getCount (BitVec.ofNat 16 c)]
  | .getEdges => [.getEdges]
  | .getDrops c => [.getDrops (BitVec.ofNat 16 c)]
  | .txLoadP b => [.txLoadP (BitVec.ofNat 8 b)]
  | .txLoadS b => [.txLoadS (BitVec.ofNat 8 b)]
  | .txPeriod ms => [.txPeriod (BitVec.ofNat 16 ms)]
  | .txStart => [.txStart]
  | .txStop => [.txStop]
  | .txQuery sel => [.txQuery (BitVec.ofNat 16 sel)]
  | .setDin c v => [.setDin (channelOfBit (c == 1)) (v == 1)]
  | .setStrobe v => [.setStrobe (v == 1)]
  | .cancel => [.cancel]
  | .reset => [.reset]
  | .tick => [.tick]
  | .edge b0 b1 => edgeInstrs (b0 == 1) (b1 == 1)
  | .sendByte x0 x1 => sendByteInstrs (BitVec.ofNat 8 x0) (BitVec.ofNat 8 x1)
  | .sendByteMsb x0 x1 => sendByteMsbInstrs (BitVec.ofNat 8 x0) (BitVec.ofNat 8 x1)
  | .ticks n => List.replicate n .tick

/-- The words of a line; a line with an operand that does not fit its field has no encoding (30_encoding.md R76). -/
def assembleLine (l : Line) : Option (List Input) :=
  if l.wellFormed then some ((lineInstrs l).map encode) else none

/-- The words of a program, line after line (30_encoding.md R79). -/
def assemble : List Line → Option (List Input)
  | [] => some []
  | l :: rest =>
    match assembleLine l, assemble rest with
    | some xs, some ys => some (xs ++ ys)
    | _, _ => none

/-- s with a program still to be performed after what already waits: its lines are presented in order (30_encoding.md R79). -/
def State.loadProgram (s : State) (words : List Input) : State :=
  { s with inputs := s.inputs ++ words }

/-- Has the program ended: its last line is performed and PORT = IDLE (30_encoding.md R79)? -/
def State.programEnded (s : State) : Bool :=
  decide (s.inputs = []) && decide (s.rx.port = .idle)

/-! ### Source text -/

/-- The text before a comment: `;` starts a comment that runs to the end of the line (30_encoding.md R76). -/
def stripComment (cs : List Char) : List Char :=
  cs.takeWhile (· ≠ ';')

/-- White space taken off both ends. -/
def trimSpaces (cs : List Char) : List Char :=
  ((cs.dropWhile Char.isWhitespace).reverse.dropWhile Char.isWhitespace).reverse

/-- The operands: the text cut at its commas. Blank text has no operand. -/
def splitCommas : List Char → List (List Char)
  | [] => [[]]
  | c :: cs =>
    match splitCommas cs with
    | [] => [[c]]
    | x :: xs => if c = ',' then [] :: x :: xs else (c :: x) :: xs

/-- The operands of a line, each without the white space around it. -/
def operandTexts (cs : List Char) : List (List Char) :=
  if trimSpaces cs = [] then [] else (splitCommas cs).map trimSpaces

/-- The value of one digit in a base up to 16; a letter may be small or capital. -/
def digitValue (base : Nat) (c : Char) : Option Nat :=
  let v :=
    if '0' ≤ c ∧ c ≤ '9' then c.toNat - '0'.toNat
    else if 'a' ≤ c ∧ c ≤ 'f' then c.toNat - 'a'.toNat + 10
    else if 'A' ≤ c ∧ c ≤ 'F' then c.toNat - 'A'.toNat + 10
    else base
  if v < base then some v else none

/-- The digits of a number, the most significant first, after those read so far. -/
def readDigits (base : Nat) : Nat → List Char → Option Nat
  | acc, [] => some acc
  | acc, c :: cs =>
    match digitValue base c with
    | none => none
    | some d => readDigits base (acc * base + d) cs

/-- A number: decimal, `0x` hexadecimal or `0b` binary (30_encoding.md R76). -/
def readNumber : List Char → Option Nat
  | [] => none
  | ['0', 'x'] => none
  | ['0', 'b'] => none
  | '0' :: 'x' :: cs => readDigits 16 0 cs
  | '0' :: 'b' :: cs => readDigits 2 0 cs
  | cs => readDigits 10 0 cs

/-- A channel operand: a number, or `P` (= 0) or `S` (= 1) (30_encoding.md R76). -/
def readChannel (cs : List Char) : Option Nat :=
  if cs = ['P'] then some 0
  else if cs = ['S'] then some 1
  else readNumber cs

/-- A line with no operand. -/
def noOperand (ops : List (List Char)) (l : Line) : Option Line :=
  if ops = [] then some l else none

/-- A line with one operand. -/
def oneOperand (p : List Char → Option Nat) (ops : List (List Char)) (l : Nat → Line) : Option Line :=
  match ops with
  | [a] => (p a).map l
  | _ => none

/-- A line with two operands. -/
def twoOperands (p q : List Char → Option Nat) (ops : List (List Char)) (l : Nat → Nat → Line) : Option Line :=
  match ops with
  | [a, b] =>
    match p a, q b with
    | some x, some y => some (l x y)
    | _, _ => none
  | _ => none

/-- The line a mnemonic and its operand texts make (30_encoding.md R76 to R79). -/
def lineOf (m : List Char) (ops : List (List Char)) : Option Line :=
  if m = "READ".toList then oneOperand readNumber ops .read
  else if m = "READ.NB".toList then oneOperand readNumber ops .readNb
  else if m = "SELECT".toList then oneOperand readChannel ops .select
  else if m = "QUERY".toList then noOperand ops .query
  else if m = "GET_COUNT".toList then oneOperand readChannel ops .getCount
  else if m = "GET_EDGES".toList then noOperand ops .getEdges
  else if m = "GET_DROPS".toList then oneOperand readChannel ops .getDrops
  else if m = "TX_LOAD_P".toList then oneOperand readNumber ops .txLoadP
  else if m = "TX_LOAD_S".toList then oneOperand readNumber ops .txLoadS
  else if m = "TX_PERIOD".toList then oneOperand readNumber ops .txPeriod
  else if m = "TX_START".toList then noOperand ops .txStart
  else if m = "TX_STOP".toList then noOperand ops .txStop
  else if m = "TX_QUERY".toList then oneOperand readNumber ops .txQuery
  else if m = "SET_DIN".toList then twoOperands readChannel readNumber ops .setDin
  else if m = "SET_STROBE".toList then oneOperand readNumber ops .setStrobe
  else if m = "CANCEL".toList then noOperand ops .cancel
  else if m = "RESET".toList then noOperand ops .reset
  else if m = "TICK".toList then noOperand ops .tick
  else if m = "EDGE".toList then twoOperands readNumber readNumber ops .edge
  else if m = "SENDBYTE".toList then twoOperands readNumber readNumber ops .sendByte
  else if m = "SENDBYTE.MSB".toList then twoOperands readNumber readNumber ops .sendByteMsb
  else if m = "TICKS".toList then oneOperand readNumber ops .ticks
  else none

/-- The source lines of one line of text: none of them for a blank line or a comment, and no reading where the text is no
form of 30_encoding.md R76. -/
def readLine (text : List Char) : Option (List Line) :=
  let cs := trimSpaces (stripComment text)
  if cs = [] then some []
  else
    match lineOf (cs.takeWhile fun c => !c.isWhitespace) (operandTexts (cs.dropWhile fun c => !c.isWhitespace)) with
    | some l => some [l]
    | none => none

/-- The words of a program given as lines of text. -/
def assembleText (texts : List String) : Option (List Input) :=
  match texts with
  | [] => some []
  | t :: rest =>
    match readLine t.toList, assembleText rest with
    | some ls, some ys => (assemble ls).map (· ++ ys)
    | _, _ => none

end Sys2Proof.Machine
end

