-- ==== Sys2Proof/Machine/Flags.lean ====
section
/-! DEFINITION. The block has no flags register (10_state.md R38). What stands in its place: the three derived signals of a
queue (R27), whose DAV is an output pin, and the numbers of the status codes (30_encoding.md R62). -/

namespace Sys2Proof.Machine

open Sys2Proof

/-- EMPTY[c] (10_state.md R27). -/
def State.isEmpty (s : State) (c : Channel) : Bool :=
  (s.rx.q.get c).length == 0

/-- FULL[c] (10_state.md R27). -/
def State.isFull (s : State) (c : Channel) : Bool :=
  (s.rx.q.get c).length == s.cfg.cap

/-- DAV[c], a level output of the block (10_state.md R27, 60_exceptions.md R140). -/
def State.dav (s : State) (c : Channel) : Bool :=
  !s.isEmpty c

/-- The 4-bit code of a status (30_encoding.md R62). -/
def statusCode : Status → BitVec 4
  | .ok => 0
  | .wouldBlock => 1
  | .restart => 2
  | .inval => 3
  | .precond => 4
  | .illegal => 5
  | .full => 6
  | .busy => 7

end Sys2Proof.Machine
end

