-- ==== Sys2Proof/Safety.lean ====
section
/-! DEFINITION. What holds in every state a run can reach (the invariants the spec states, 10_state.md R24 to R36), and the
ways to run several instructions that the statements use. -/

namespace Sys2Proof.Machine

open Sys2Proof

/-! ### Invariants of the receiver -/

/-- Every bit of ACC[c] from POS[c] up is 0 (10_state.md R24). -/
def Rx.AccClear (r : Rx) : Prop :=
  ∀ (c : Channel) (j : Nat), (r.pos.get c).toNat ≤ j → j ≤ 7 → (r.acc.get c).getLsbD j = false

/-- POS[0] = POS[1] (10_state.md R25). -/
def Rx.PosEqual (r : Rx) : Prop :=
  r.pos.get .primary = r.pos.get .secondary

/-- POS[c] = EDGE_CNT mod 8 (41_edge_decoder.md R106). -/
def Rx.PosCounts (r : Rx) : Prop :=
  ∀ c : Channel, (r.pos.get c).toNat = r.edgeCnt.toNat % 8

/-- len(Q[c]) ≤ CAP (10_state.md R26). -/
def Rx.QueuesFit (cap : Nat) (r : Rx) : Prop :=
  ∀ c : Channel, (r.q.get c).length ≤ cap

/-- A pending READ asks for at least one byte (10_state.md R31). -/
def Rx.PortLegal (r : Rx) : Prop :=
  ∀ (ch : Channel) (n : Arg), r.port = .pending ch n → n ≠ 0

/-! ### Invariants of the transmitter -/

/-- len(TXBUF[c]) ≤ TX_DEPTH (10_state.md R32). -/
def Tx.BuffersFit (depth : Nat) (t : Tx) : Prop :=
  ∀ c : Channel, (t.buf.get c).length ≤ depth

/-- The sequencer and the outputs of a stopped transmitter (10_state.md R35, 40_transmitter.md R88). -/
structure Tx.Resting (t : Tx) : Prop where
  index      : t.k = 0
  bit        : t.i = 0
  phase      : t.ph = .setup
  timer      : t.tmr = 0
  dataLow    : t.dout = Both.same false
  strobeLow  : t.strobeOut = false
  released   : t.oe = false

/-- The number of ticks a phase lasts (40_transmitter.md R90). -/
def phaseLength (cfg : Config) (t : Tx) : Nat :=
  match t.ph with
  | .setup => cfg.tSetup
  | .pulse => cfg.tPulse
  | .dead => cfg.tDead
  | .gap => t.period.toNat * cfg.ticksPerMs

/-- The sequencer and the outputs of a running transmitter: the two buffers have one length, TX_K is an index into them,
1 ≤ TX_TMR ≤ the phase's length (10_state.md R35), the outputs are driven, the strobe is high in PULSE alone
(40_transmitter.md R80) and each data output shows bit TX_I of sample TX_K (R90, R82). -/
structure Tx.Running (cfg : Config) (t : Tx) : Prop where
  sameLength : (t.buf.get .secondary).length = (t.buf.get .primary).length
  inRange    : t.k < (t.buf.get .primary).length
  periodSet  : t.period ≠ 0
  timerLow   : 1 ≤ t.tmr
  timerHigh  : t.tmr ≤ phaseLength cfg t
  driven     : t.oe = true
  strobe     : t.strobeOut = decide (t.ph = .pulse)
  gapBit     : t.ph = .gap → t.i = 7
  data       : ∀ c : Channel, ∃ b : Byte, txRead c t.k t = some b ∧ t.dout.get c = b.getLsbD t.i.toNat

/-- The transmitter is running or resting as TX_RUN says, and an absent one is as at power-on (10_state.md R35,
00_scope.md R8). -/
structure Tx.Legal (cfg : Config) (t : Tx) : Prop where
  buffersFit : t.BuffersFit cfg.txDepth
  running    : t.run = true → t.Running cfg
  resting    : t.run = false → t.Resting
  absent     : cfg.hasTx = false → t = Tx.powerOn

/-! ### The whole block -/

/-- Where LOOPBACK is true and the outputs are driven, the receiver's inputs are at the transmitter's levels
(40_transmitter.md R96). -/
def State.LinesLooped (s : State) : Prop :=
  s.cfg.loopback = true → s.tx.oe = true → s.rx.din = s.tx.dout ∧ s.rx.strobeIn = s.tx.strobeOut

/-- What holds in every reachable state of a block with legal parameters. -/
structure State.Inv (s : State) : Prop where
  cfgLegal    : s.cfg.Legal
  accClear    : s.rx.AccClear
  posEqual    : s.rx.PosEqual
  posCounts   : s.rx.PosCounts
  queuesFit   : s.rx.QueuesFit s.cfg.cap
  portLegal   : s.rx.PortLegal
  txLegal     : s.tx.Legal s.cfg
  linesLooped : s.LinesLooped

/-- A step that does not stop the block with a fault: "no command or event traps" (60_exceptions.md R128). -/
def NoFault (r : Result) : Prop :=
  ∀ f : Fault, r ≠ .fault f

/-! ### The shift-register realisation -/

/-- One edge of the shift register SR that a realisation may keep instead of ACC (41_edge_decoder.md R105). -/
def shiftIn (sr : Byte) (b : Level) : Byte :=
  (BitVec.ofBool b).setWidth 8 <<< 7 ||| sr >>> 1

/-! ### Several instructions in a row -/

/-- Run instructions one after the other, stopping at the first fault or refusal. -/
def execAll : List Instr → State → Result
  | [], s => .next s
  | i :: rest, s =>
    match exec i s with
    | .next t => execAll rest t
    | .fault f => .fault f
    | .refused r => .refused r

/-- `TICKS n` (30_encoding.md R79). -/
def ticks (n : Nat) (s : State) : Result :=
  execAll (List.replicate n .tick) s

end Sys2Proof.Machine
end

