-- ==== Sys2Proof/Certificates/Slice0/Obligations.lean ====
section
/-! DEFINITION. The statements for the provers, in the order of OBLIGATIONS.json. Each docstring names the rules of spec/ that
the statement formalises. The next state of an instruction is written out as an update of the state it starts from, so that
everything not named in the update is unchanged: its frame. -/

open Sys2Proof Sys2Proof.Machine

/-! ### Encodings -/

/-- Words written out in the spec decode to what they stand for (30_encoding.md R61, R65, R76). -/
def Obligations.WordsOfTheSpecDecode : Prop :=
  decodeCommand true 0x10000002#32 = .ok (.read 2) ∧
  decodeCommand true 0x18000004#32 = .ok (.readNb 4) ∧
  decodeCommand true 0x20000001#32 = .ok (.select 1) ∧
  decodeCommand true 0x800000B2#32 = .ok (.txLoadP 0xB2) ∧
  decodeCommand true 0xA000FFFF#32 = .ok (.txPeriod 65535) ∧
  decodeEvent 0x12#8 = .ok (.setDin .secondary false) ∧
  decodeEvent 0x21#8 = .ok (.setStrobe true) ∧
  decodeEvent 0x50#8 = .ok .tick

/-- Decoding the encoding of an instruction that the block has gives it back, for every operand (30_encoding.md R58, R61,
R65, R76). -/
def Obligations.DecodeInvertsEncode : Prop :=
  ∀ (hasTx : Bool) (i : Instr), i.wellFormed hasTx = true → decode hasTx (encode i) = .ok i

/-- A word that decodes is the encoding of the instruction it decodes to, so no instruction has two words; and the block
has that instruction (30_encoding.md R73, R72). -/
def Obligations.EncodeInvertsDecode : Prop :=
  ∀ (hasTx : Bool) (x : Input) (i : Instr),
    decode hasTx x = .ok i → encode i = x ∧ i.wellFormed hasTx = true

/-- A command word with a reserved opcode, with Z ≠ 0, with M = 1 on an opcode other than READ, with an operand on a
command that takes none, or with a transmitter opcode where HAS_TX is false, is answered (ILLEGAL, 0, []) and changes no
state (30_encoding.md R68, R69, R70, R71, R72). -/
def Obligations.ReservedCommandWordsAreAnsweredIllegal : Prop :=
  ∀ (s : State) (w : Word) (rest : List Input),
    s.inputs = .command w :: rest → s.rx.port = .idle →
    (w.toNat / 2 ^ 28 ∈ [0x0, 0x7, 0xD, 0xF] ∨
      w.toNat / 2 ^ 16 % 2 ^ 11 ≠ 0 ∨
      (w.toNat / 2 ^ 27 % 2 = 1 ∧ w.toNat / 2 ^ 28 ≠ 0x1) ∨
      (w.toNat / 2 ^ 28 ∈ [0x3, 0x5, 0xB, 0xC] ∧ w.toNat % 2 ^ 16 ≠ 0) ∨
      (w.toNat / 2 ^ 28 ∈ [0x8, 0x9, 0xA, 0xB, 0xC, 0xE] ∧ s.cfg.hasTx = false)) →
    step s = .next { s with inputs := rest, responses := s.responses ++ [⟨.illegal, 0, []⟩] }

/-- A load whose ARG[15:8] is not 0 is answered (ILLEGAL, 0, []) and changes no state (30_encoding.md R64). -/
def Obligations.LoadsWithAHighArgAreAnsweredIllegal : Prop :=
  ∀ (s : State) (w : Word) (rest : List Input),
    s.inputs = .command w :: rest → s.rx.port = .idle →
    w.toNat / 2 ^ 28 ∈ [0x8, 0x9] → w.toNat / 2 ^ 8 % 2 ^ 8 ≠ 0 →
    step s = .next { s with inputs := rest, responses := s.responses ++ [⟨.illegal, 0, []⟩] }

/-- Every command word that no check rejects decodes to the command of the opcode map, its operand the field ARG
(30_encoding.md R65, R67, R73). -/
def Obligations.EveryOtherCommandWordFollowsTheOpcodeMap : Prop :=
  ∀ (arg : Arg) (b : Byte) (hasTx : Bool),
    decodeCommand hasTx (BitVec.ofNat 32 (0x1 * 2 ^ 28 + arg.toNat)) = .ok (.read arg) ∧
    decodeCommand hasTx (BitVec.ofNat 32 (0x1 * 2 ^ 28 + 2 ^ 27 + arg.toNat)) = .ok (.readNb arg) ∧
    decodeCommand hasTx (BitVec.ofNat 32 (0x2 * 2 ^ 28 + arg.toNat)) = .ok (.select arg) ∧
    decodeCommand hasTx (BitVec.ofNat 32 (0x3 * 2 ^ 28)) = .ok .query ∧
    decodeCommand hasTx (BitVec.ofNat 32 (0x4 * 2 ^ 28 + arg.toNat)) = .ok (.getCount arg) ∧
    decodeCommand hasTx (BitVec.ofNat 32 (0x5 * 2 ^ 28)) = .ok .getEdges ∧
    decodeCommand hasTx (BitVec.ofNat 32 (0x6 * 2 ^ 28 + arg.toNat)) = .ok (.getDrops arg) ∧
    decodeCommand true (BitVec.ofNat 32 (0x8 * 2 ^ 28 + b.toNat)) = .ok (.txLoadP b) ∧
    decodeCommand true (BitVec.ofNat 32 (0x9 * 2 ^ 28 + b.toNat)) = .ok (.txLoadS b) ∧
    decodeCommand true (BitVec.ofNat 32 (0xA * 2 ^ 28 + arg.toNat)) = .ok (.txPeriod arg) ∧
    decodeCommand true (BitVec.ofNat 32 (0xB * 2 ^ 28)) = .ok .txStart ∧
    decodeCommand true (BitVec.ofNat 32 (0xC * 2 ^ 28)) = .ok .txStop ∧
    decodeCommand true (BitVec.ofNat 32 (0xE * 2 ^ 28 + arg.toNat)) = .ok (.txQuery arg)

/-- An event word that 30_encoding.md R61 does not list is refused, and a listed one names an event (R74). -/
def Obligations.ReservedEventWordsAreRefused : Prop :=
  ∀ w : BitVec 8,
    (w ∉ [0x10#8, 0x11#8, 0x12#8, 0x13#8, 0x20#8, 0x21#8, 0x30#8, 0x40#8, 0x50#8] →
      ∀ (s : State) (rest : List Input), s.inputs = .event w :: rest → step s = .refused .reservedEvent) ∧
    (w ∈ [0x10#8, 0x11#8, 0x12#8, 0x13#8, 0x20#8, 0x21#8, 0x30#8, 0x40#8, 0x50#8] →
      ∃ i : Instr, decodeEvent w = .ok i)

/-! ### Steps -/

/-- A step runs the decoded instruction: where the next input is an event word, or a command word that finds the port idle,
and it decodes to i, the step is exec of i at the state with that word taken off (42_read_interface.md R125). -/
def Obligations.StepRunsTheDecodedInstruction : Prop :=
  ∀ (s : State) (rest : List Input) (i : Instr),
    (∀ w : Word, s.inputs = .command w :: rest → s.rx.port = .idle → decodeCommand s.cfg.hasTx w = .ok i →
      step s = exec i { s with inputs := rest }) ∧
    (∀ w : BitVec 8, s.inputs = .event w :: rest → decodeEvent w = .ok i →
      step s = exec i { s with inputs := rest })

/-- A command that finds the port held is not issued (42_read_interface.md R125). COMPLETE fires if it is enabled, and answers
with the oldest min(n, len) bytes of the latched queue (R113). Otherwise the first input behind the waiting commands goes
on, so the producer never waits for the port (20_memory.md R52): an event is performed, a reserved event word is refused
(30_encoding.md R74), and RDC's turn passes. With nothing behind them the port stays held and nothing changes
(70_reset_and_hazards.md R160). That the others overtake the waiting commands is the model's choice
(notes/assumptions/2.md). -/
def Obligations.CommandsWaitWhileThePortIsHeld : Prop :=
  ∀ (s : State) (w : Word) (ws : List Word) (ch : Channel) (n : Arg) (queue : List Byte),
    s.rx.port = .pending ch n → queue = s.rx.q.get ch →
    (∀ rest : List Input, queue ≠ [] → s.inputs = .command w :: rest →
      step s = .next { s with
        rx := { s.rx with port := .idle, q := s.rx.q.set ch (queue.drop (min n.toNat queue.length)) }
        responses := s.responses ++
          [⟨.ok, BitVec.ofNat 32 (min n.toNat queue.length), queue.take (min n.toNat queue.length)⟩] }) ∧
    (∀ (e : BitVec 8) (rest : List Input), queue = [] →
      s.inputs = .command w :: (ws.map .command ++ .event e :: rest) →
      (∀ i : Instr, decodeEvent e = .ok i →
        step s = exec i { s with inputs := .command w :: (ws.map .command ++ rest) }) ∧
      (∀ r : Reject, decodeEvent e = .error r → step s = .refused .reservedEvent)) ∧
    (∀ rest : List Input, queue = [] → s.inputs = .command w :: (ws.map .command ++ .rdc :: rest) →
      step s = .next { s with inputs := .command w :: (ws.map .command ++ rest) }) ∧
    (queue = [] → s.inputs = .command w :: ws.map .command → step s = .next s)

/-- A program of line events runs as its instructions one after the other, in order (30_encoding.md R79). That n event words
take exactly n steps, each the exec of its event, is the model's choice: the words wait in a list that the steps take one
by one (notes/assumptions/1.md), and with a READ pending, where R79 lets COMPLETE fire at any point once it is enabled, it
does not fire between two words that stand next to each other in that list (notes/assumptions/3.md). -/
def Obligations.EventProgramsRunInOrder : Prop :=
  ∀ (is : List Instr) (s : State),
    (∀ i ∈ is, ∃ w : BitVec 8, encode i = .event w) → s.inputs = [] →
    Host.Core.run Sys2Proof.core is.length (s.loadProgram (is.map encode)) = execAll is s

/-! ### Line events and the decoder -/

/-- SET_DIN writes one data level and nothing else (41_edge_decoder.md R100); ENV's is refused where LOOPBACK is true
(40_transmitter.md R96). -/
def Obligations.SetDinWritesOneLevel : Prop :=
  ∀ (ch : Channel) (v : Level) (s : State),
    (s.cfg.loopback = false →
      exec (.setDin ch v) s = .next { s with rx := { s.rx with din := s.rx.din.set ch v } }) ∧
    (s.cfg.loopback = true → exec (.setDin ch v) s = .refused .lineDrivenByLoopback)

/-- SET_STROBE with no rise of the level only records the level: a falling edge or the same level runs no EDGE
(41_edge_decoder.md R101); ENV's is refused where LOOPBACK is true (40_transmitter.md R96). -/
def Obligations.SetStrobeWithoutARiseOnlyRecords : Prop :=
  ∀ (v : Level) (s : State),
    (s.cfg.loopback = false → (s.rx.strobeIn = true ∨ v = false) →
      exec (.setStrobe v) s = .next { s with rx := { s.rx with strobeIn := v } }) ∧
    (s.cfg.loopback = true → exec (.setStrobe v) s = .refused .lineDrivenByLoopback)

/-- A rising strobe runs EDGE (41_edge_decoder.md R101, R102): one edge is counted; each channel ORs its data level into
ACC at POS; before the 8th bit the position advances; at the 8th the byte is appended, or dropped and counted where the
queue is full, and the accumulator and position are cleared. Nothing else changes but STROBE_IN. -/
def Obligations.RisingStrobeSamplesBothChannels : Prop :=
  ∀ s : State, s.cfg.loopback = false → s.rx.strobeIn = false →
    ∃ r : Rx, exec (.setStrobe true) s = .next { s with rx := r } ∧
      r.din = s.rx.din ∧ r.sel = s.rx.sel ∧ r.port = s.rx.port ∧ r.strobeIn = true ∧
      r.edgeCnt.toNat = (s.rx.edgeCnt.toNat + 1) % 2 ^ 32 ∧
      ∀ c : Channel, ∀ a : Byte,
        a = s.rx.acc.get c ||| (BitVec.ofBool (s.rx.din.get c)).setWidth 8 <<< (s.rx.pos.get c).toNat →
        ((s.rx.pos.get c).toNat < 7 →
          r.acc.get c = a ∧ (r.pos.get c).toNat = (s.rx.pos.get c).toNat + 1 ∧
            r.q.get c = s.rx.q.get c ∧ r.dropCnt.get c = s.rx.dropCnt.get c) ∧
        ((s.rx.pos.get c).toNat = 7 → (s.rx.q.get c).length < s.cfg.cap →
          r.acc.get c = 0 ∧ r.pos.get c = 0 ∧
            r.q.get c = s.rx.q.get c ++ [a] ∧ r.dropCnt.get c = s.rx.dropCnt.get c) ∧
        ((s.rx.pos.get c).toNat = 7 → s.cfg.cap ≤ (s.rx.q.get c).length →
          r.acc.get c = 0 ∧ r.pos.get c = 0 ∧
            r.q.get c = s.rx.q.get c ∧ (r.dropCnt.get c).toNat = ((s.rx.dropCnt.get c).toNat + 1) % 2 ^ 32)

/-- SENDBYTE, started at position 0 with room in both queues, appends its two bytes unchanged: bit i of a byte is the level
its edge i samples (41_edge_decoder.md R103, 30_encoding.md R78). The next state is written out whole. -/
def Obligations.SendByteIsAssembledUnchanged : Prop :=
  ∀ (x0 x1 : Byte) (s : State),
    s.cfg.loopback = false → s.rx.pos = ⟨0, 0⟩ → s.rx.acc = ⟨0, 0⟩ →
    (s.rx.q.get .primary).length < s.cfg.cap → (s.rx.q.get .secondary).length < s.cfg.cap →
    execAll (sendByteInstrs x0 x1) s = .next { s with
      rx := { s.rx with
        din := ⟨x0.getLsbD 7, x1.getLsbD 7⟩, strobeIn := true, edgeCnt := s.rx.edgeCnt + 8
        q := ⟨s.rx.q.primary ++ [x0], s.rx.q.secondary ++ [x1]⟩ } }

/-- SENDBYTE.MSB appends each byte with its bits reversed: rev(x)[i] = x[7 − i] (41_edge_decoder.md R110). -/
def Obligations.MsbFirstReversesTheBits : Prop :=
  ∀ (x0 x1 : Byte) (s : State),
    s.cfg.loopback = false → s.rx.pos = ⟨0, 0⟩ → s.rx.acc = ⟨0, 0⟩ →
    (s.rx.q.get .primary).length < s.cfg.cap → (s.rx.q.get .secondary).length < s.cfg.cap →
    ∃ (t : State) (y0 y1 : Byte), execAll (sendByteMsbInstrs x0 x1) s = .next t ∧
      t.rx.q = ⟨s.rx.q.primary ++ [y0], s.rx.q.secondary ++ [y1]⟩ ∧
      ∀ i : Nat, i < 8 → y0.getLsbD i = x0.getLsbD (7 - i) ∧ y1.getLsbD i = x1.getLsbD (7 - i)

/-- The byte a channel emits on the 8th edge is what a shift register that starts at 0 and takes the same eight levels holds
then (41_edge_decoder.md R105): the two realisations emit the same bytes. -/
def Obligations.ShiftRegisterEmitsTheSameByte : Prop :=
  ∀ (bs : List (Level × Level)) (s : State),
    bs.length = 8 → s.cfg.loopback = false → s.rx.pos = ⟨0, 0⟩ → s.rx.acc = ⟨0, 0⟩ →
    (s.rx.q.get .primary).length < s.cfg.cap → (s.rx.q.get .secondary).length < s.cfg.cap →
    ∃ t : State, execAll (bs.flatMap fun b => edgeInstrs b.1 b.2) s = .next t ∧
      t.rx.q = ⟨s.rx.q.primary ++ [(bs.map Prod.fst).foldl shiftIn 0],
        s.rx.q.secondary ++ [(bs.map Prod.snd).foldl shiftIn 0]⟩

/-- Conservation from power-on, with no read: after E rising edges each channel has emitted ⌊E/8⌋ bytes, of which the first
CAP wait in its queue, in order, and the others are counted in DROP_CNT, modulo 2^32 (41_edge_decoder.md R104, R107,
20_memory.md R40, R41). Bit i of the m-th byte is the level that the channel's edge 8m + i sampled (41_edge_decoder.md
R103). -/
def Obligations.EveryEmittedByteIsQueuedOrCounted : Prop :=
  ∀ (cfg : Config) (bs : List (Both Level)), cfg.loopback = false →
    ∃ t : State, execAll (bs.flatMap fun b => edgeInstrs b.primary b.secondary) (State.powerOn cfg) = .next t ∧
      t.rx.edgeCnt.toNat = bs.length % 2 ^ 32 ∧
      ∀ c : Channel, (t.rx.q.get c).length = min cfg.cap (bs.length / 8) ∧
        (∀ m : Nat, m < min cfg.cap (bs.length / 8) → ∃ b : Byte, (t.rx.q.get c)[m]? = some b ∧
          ∀ i : Nat, i < 8 → bs[8 * m + i]?.map (fun x => x.get c) = some (b.getLsbD i)) ∧
        (t.rx.dropCnt.get c).toNat = (bs.length / 8 - cfg.cap) % 2 ^ 32

/-- Channel independence: what a strobe event leaves in one channel's accumulator, position, queue and drop counter depends,
of all that the two blocks hold for a channel, on that channel's alone (41_edge_decoder.md R111). -/
def Obligations.ChannelsAreIndependent : Prop :=
  ∀ (c : Channel) (v : Level) (s s' t t' : State),
    s.cfg = s'.cfg → s.rx.strobeIn = s'.rx.strobeIn →
    s.rx.din.get c = s'.rx.din.get c → s.rx.acc.get c = s'.rx.acc.get c → s.rx.pos.get c = s'.rx.pos.get c →
    s.rx.q.get c = s'.rx.q.get c → s.rx.dropCnt.get c = s'.rx.dropCnt.get c →
    exec (.setStrobe v) s = .next t → exec (.setStrobe v) s' = .next t' →
    t.rx.acc.get c = t'.rx.acc.get c ∧ t.rx.pos.get c = t'.rx.pos.get c ∧
      t.rx.q.get c = t'.rx.q.get c ∧ t.rx.dropCnt.get c = t'.rx.dropCnt.get c

/-! ### The read interface -/

/-- READ and READ.NB (42_read_interface.md R112): N = 0 is answered PRECOND; a non-empty selected queue gives its oldest
min(N, len) bytes at once; on an empty one READ.NB is answered WOULD_BLOCK, and READ holds the port and is not answered. -/
def Obligations.ReadTakesFromTheSelectedQueue : Prop :=
  ∀ (n : Arg) (s : State) (queue : List Byte), queue = s.rx.q.get s.rx.sel →
    (n = 0 →
      exec (.read n) s = .next { s with responses := s.responses ++ [⟨.precond, 0, []⟩] } ∧
      exec (.readNb n) s = .next { s with responses := s.responses ++ [⟨.precond, 0, []⟩] }) ∧
    (n ≠ 0 → queue ≠ [] →
      exec (.read n) s = .next { s with
        rx := { s.rx with q := s.rx.q.set s.rx.sel (queue.drop (min n.toNat queue.length)) }
        responses := s.responses ++
          [⟨.ok, BitVec.ofNat 32 (min n.toNat queue.length), queue.take (min n.toNat queue.length)⟩] } ∧
      exec (.readNb n) s = exec (.read n) s) ∧
    (n ≠ 0 → queue = [] →
      exec (.read n) s = .next { s with rx := { s.rx with port := .pending s.rx.sel n } } ∧
      exec (.readNb n) s = .next { s with responses := s.responses ++ [⟨.wouldBlock, 0, []⟩] })

/-- COMPLETE, on RDC's turn or where no input is left (42_read_interface.md R113): where PORT = PENDING(ch, n) and Q[ch] is not
empty, its oldest min(n, len) bytes are the response and the port is idle again; in any other state RDC does nothing. When
RDC moves is the model's choice (notes/assumptions/1.md, 3.md and 17.md). -/
def Obligations.CompleteAnswersThePendingRead : Prop :=
  ∀ (s : State) (rest : List Input), (s.inputs = .rdc :: rest ∨ s.inputs = [] ∧ rest = []) →
    (∀ (ch : Channel) (n : Arg) (queue : List Byte),
      s.rx.port = .pending ch n → queue = s.rx.q.get ch → queue ≠ [] →
      step s = .next { s with
        inputs := rest
        rx := { s.rx with port := .idle, q := s.rx.q.set ch (queue.drop (min n.toNat queue.length)) }
        responses := s.responses ++
          [⟨.ok, BitVec.ofNat 32 (min n.toNat queue.length), queue.take (min n.toNat queue.length)⟩] }) ∧
    (∀ (ch : Channel) (n : Arg), s.rx.port = .pending ch n → s.rx.q.get ch = [] →
      step s = .next { s with inputs := rest }) ∧
    (s.rx.port = .idle → step s = .next { s with inputs := rest })

/-- CANCEL, the event word 0x30, answers a pending READ with RESTART and removes no byte, whether or not COMPLETE is enabled;
with no READ pending it has no effect (42_read_interface.md R114). -/
def Obligations.CancelEndsThePendingRead : Prop :=
  decodeEvent 0x30#8 = .ok .cancel ∧
  ∀ s : State,
    (∀ (ch : Channel) (n : Arg), s.rx.port = .pending ch n →
      exec .cancel s = .next { s with
        rx := { s.rx with port := .idle }, responses := s.responses ++ [⟨.restart, 0, []⟩] }) ∧
    (s.rx.port = .idle → exec .cancel s = .next s)

/-- SELECT writes SEL for the values 0 and 1, and any other value is answered INVAL (42_read_interface.md R119). -/
def Obligations.SelectSetsTheChannel : Prop :=
  ∀ (v : Arg) (s : State),
    (v.toNat = 0 → exec (.select v) s = .next { s with
      rx := { s.rx with sel := .primary }, responses := s.responses ++ [⟨.ok, 0, []⟩] }) ∧
    (v.toNat = 1 → exec (.select v) s = .next { s with
      rx := { s.rx with sel := .secondary }, responses := s.responses ++ [⟨.ok, 0, []⟩] }) ∧
    (2 ≤ v.toNat → exec (.select v) s = .next { s with responses := s.responses ++ [⟨.inval, 0, []⟩] })

/-- QUERY, the word 0x30000000, returns the number of the selected channel and changes nothing (42_read_interface.md R120). -/
def Obligations.QueryReturnsTheChannel : Prop :=
  (∀ hasTx : Bool, decodeCommand hasTx 0x30000000#32 = .ok .query) ∧
  ∀ s : State,
    (s.rx.sel = .primary → exec .query s = .next { s with responses := s.responses ++ [⟨.ok, 0, []⟩] }) ∧
    (s.rx.sel = .secondary → exec .query s = .next { s with responses := s.responses ++ [⟨.ok, 1, []⟩] })

/-- GET_COUNT returns the length of the queue its operand names; any operand from 2 up is answered INVAL
(42_read_interface.md R122). A length of 2^32 or more still gets an OK response, of any VALUE (notes/assumptions/9.md). -/
def Obligations.GetCountReturnsTheLength : Prop :=
  ∀ (n : Arg) (c : Channel) (s : State),
    ((n.toNat = 0 ∧ c = .primary ∨ n.toNat = 1 ∧ c = .secondary) → (s.rx.q.get c).length < 2 ^ 32 →
      exec (.getCount n) s = .next { s with
        responses := s.responses ++ [⟨.ok, BitVec.ofNat 32 (s.rx.q.get c).length, []⟩] }) ∧
    ((n.toNat = 0 ∧ c = .primary ∨ n.toNat = 1 ∧ c = .secondary) → 2 ^ 32 ≤ (s.rx.q.get c).length →
      ∃ v : Word, exec (.getCount n) s = .next { s with responses := s.responses ++ [⟨.ok, v, []⟩] }) ∧
    (2 ≤ n.toNat → exec (.getCount n) s = .next { s with responses := s.responses ++ [⟨.inval, 0, []⟩] })

/-- GET_EDGES returns EDGE_CNT and changes nothing (42_read_interface.md R123). -/
def Obligations.GetEdgesReturnsTheCounter : Prop :=
  ∀ s : State, exec .getEdges s = .next { s with responses := s.responses ++ [⟨.ok, s.rx.edgeCnt, []⟩] }

/-- GET_DROPS returns the drop counter its operand names and does not clear it; any operand from 2 up is answered INVAL
(42_read_interface.md R124). -/
def Obligations.GetDropsReturnsTheCounter : Prop :=
  ∀ (n : Arg) (c : Channel) (s : State),
    ((n.toNat = 0 ∧ c = .primary ∨ n.toNat = 1 ∧ c = .secondary) →
      exec (.getDrops n) s = .next { s with responses := s.responses ++ [⟨.ok, s.rx.dropCnt.get c, []⟩] }) ∧
    (2 ≤ n.toNat → exec (.getDrops n) s = .next { s with responses := s.responses ++ [⟨.inval, 0, []⟩] })

/-! ### The transmitter -/

/-- TX_LOAD_P and TX_LOAD_S append one byte to the buffer of their channel; they are answered BUSY while the transmitter
runs, FULL where the buffer holds TX_DEPTH bytes, and ILLEGAL without a transmitter (40_transmitter.md R84, R85, R83). -/
def Obligations.TxLoadAppendsOneByte : Prop :=
  ∀ (i : Instr) (c : Channel) (b : Byte) (s : State),
    (i = .txLoadP b ∧ c = .primary ∨ i = .txLoadS b ∧ c = .secondary) →
    (s.cfg.hasTx = true → s.tx.run = false → (s.tx.buf.get c).length ≠ s.cfg.txDepth →
      exec i s = .next { s with
        tx := { s.tx with buf := s.tx.buf.set c (s.tx.buf.get c ++ [b]) }
        responses := s.responses ++ [⟨.ok, 0, []⟩] }) ∧
    (s.cfg.hasTx = true → s.tx.run = false → (s.tx.buf.get c).length = s.cfg.txDepth →
      exec i s = .next { s with responses := s.responses ++ [⟨.full, 0, []⟩] }) ∧
    (s.cfg.hasTx = true → s.tx.run = true →
      exec i s = .next { s with responses := s.responses ++ [⟨.busy, 0, []⟩] }) ∧
    (s.cfg.hasTx = false → exec i s = .next { s with responses := s.responses ++ [⟨.illegal, 0, []⟩] })

/-- TX_PERIOD writes PERIOD; it is answered BUSY while the transmitter runs, PRECOND for 0, and ILLEGAL without a transmitter
(40_transmitter.md R86, R83). BUSY comes before PRECOND (60_exceptions.md R137). -/
def Obligations.TxPeriodSetsThePeriod : Prop :=
  ∀ (p : Arg) (s : State),
    (s.cfg.hasTx = true → s.tx.run = false → p ≠ 0 →
      exec (.txPeriod p) s = .next { s with
        tx := { s.tx with period := p }, responses := s.responses ++ [⟨.ok, 0, []⟩] }) ∧
    (s.cfg.hasTx = true → s.tx.run = false → p = 0 →
      exec (.txPeriod p) s = .next { s with responses := s.responses ++ [⟨.precond, 0, []⟩] }) ∧
    (s.cfg.hasTx = true → s.tx.run = true →
      exec (.txPeriod p) s = .next { s with responses := s.responses ++ [⟨.busy, 0, []⟩] }) ∧
    (s.cfg.hasTx = false → exec (.txPeriod p) s = .next { s with responses := s.responses ++ [⟨.illegal, 0, []⟩] })

/-- TX_START from two buffers of one length whose first bytes are b0 and b1, with PERIOD set, enters SETUP of bit 0 of
sample 0 and drives the outputs; with LOOPBACK the receiver's lines follow, with no rising edge (40_transmitter.md R87, R90,
R96). -/
def Obligations.TxStartEntersSetupOfBitZero : Prop :=
  ∀ (s : State) (b0 b1 : Byte) (l0 l1 : List Byte),
    s.cfg.hasTx = true → s.tx.run = false → s.tx.buf = ⟨b0 :: l0, b1 :: l1⟩ → l0.length = l1.length → s.tx.period ≠ 0 →
    exec .txStart s = .next { s with
      tx := { s.tx with
        run := true, oe := true, k := 0, i := 0, ph := .setup, tmr := s.cfg.tSetup
        dout := ⟨b0.getLsbD 0, b1.getLsbD 0⟩, strobeOut := false }
      rx := if s.cfg.loopback then { s.rx with din := ⟨b0.getLsbD 0, b1.getLsbD 0⟩, strobeIn := false } else s.rx
      responses := s.responses ++ [⟨.ok, 0, []⟩] }

/-- A TX_START whose checks do not pass is answered and changes nothing, so it makes no line event (40_transmitter.md R87,
R98): BUSY while running; PRECOND for unequal lengths, empty buffers or an unset PERIOD; ILLEGAL without a transmitter. -/
def Obligations.FailingTxStartTouchesNoPin : Prop :=
  ∀ s : State,
    (s.cfg.hasTx = true → s.tx.run = true →
      exec .txStart s = .next { s with responses := s.responses ++ [⟨.busy, 0, []⟩] }) ∧
    (s.cfg.hasTx = true → s.tx.run = false →
      (s.tx.buf.primary.length ≠ s.tx.buf.secondary.length ∨ s.tx.buf.primary = [] ∨ s.tx.period = 0) →
      exec .txStart s = .next { s with responses := s.responses ++ [⟨.precond, 0, []⟩] }) ∧
    (s.cfg.hasTx = false → exec .txStart s = .next { s with responses := s.responses ++ [⟨.illegal, 0, []⟩] })

/-- TX_STOP, the word 0xC0000000, always succeeds where there is a transmitter, in every phase and when idle: outputs released and 0, both
buffers empty, the sequencer at rest, PERIOD kept, and no line event (40_transmitter.md R88, R83). -/
def Obligations.TxStopReleasesEverything : Prop :=
  decodeCommand true 0xC0000000#32 = .ok .txStop ∧
  ∀ s : State,
    (s.cfg.hasTx = true →
      exec .txStop s = .next { s with
        tx := { Tx.powerOn with period := s.tx.period }, responses := s.responses ++ [⟨.ok, 0, []⟩] }) ∧
    (s.cfg.hasTx = false → exec .txStop s = .next { s with responses := s.responses ++ [⟨.illegal, 0, []⟩] })

/-- TX_QUERY returns TX_RUN, a buffer length or PERIOD, and changes nothing; a selector from 4 up is answered INVAL
(40_transmitter.md R89). The lengths here are below 2^32, as 00_scope.md R9 makes them. -/
def Obligations.TxQueryReadsTheTransmitter : Prop :=
  ∀ (sel : Arg) (s : State),
    (s.cfg.hasTx = true → sel.toNat = 0 → exec (.txQuery sel) s = .next { s with
      responses := s.responses ++ [⟨.ok, if s.tx.run then 1 else 0, []⟩] }) ∧
    (s.cfg.hasTx = true → sel.toNat = 1 → s.tx.buf.primary.length < 2 ^ 32 → exec (.txQuery sel) s = .next { s with
      responses := s.responses ++ [⟨.ok, BitVec.ofNat 32 s.tx.buf.primary.length, []⟩] }) ∧
    (s.cfg.hasTx = true → sel.toNat = 2 → s.tx.buf.secondary.length < 2 ^ 32 → exec (.txQuery sel) s = .next { s with
      responses := s.responses ++ [⟨.ok, BitVec.ofNat 32 s.tx.buf.secondary.length, []⟩] }) ∧
    (s.cfg.hasTx = true → sel.toNat = 3 → exec (.txQuery sel) s = .next { s with
      responses := s.responses ++ [⟨.ok, BitVec.ofNat 32 s.tx.period.toNat, []⟩] }) ∧
    (s.cfg.hasTx = true → 4 ≤ sel.toNat → exec (.txQuery sel) s = .next { s with
      responses := s.responses ++ [⟨.inval, 0, []⟩] }) ∧
    (s.cfg.hasTx = false → exec (.txQuery sel) s = .next { s with
      responses := s.responses ++ [⟨.illegal, 0, []⟩] })

/-- TICK while idle, or without a transmitter, changes nothing; a TICK inside a phase counts TX_TMR down and changes nothing
else; a TICK that ends SETUP raises the strobe, one that ends PULSE lowers it, one that ends the DEAD of bits 0 to 6 shows
the next bit, one that ends the DEAD of bit 7 enters GAP, and one that ends GAP shows bit 0 of the next sample, wrapping to
index 0 (40_transmitter.md R91, R90). With LOOPBACK, `propagate` then drives the receiver's lines (R96). -/
def Obligations.TickAdvancesTheSequencer : Prop :=
  ∀ (s : State) (looped : Tx → Rx),
    (looped = fun t => if s.cfg.loopback then propagate s.cfg.cap t.dout t.strobeOut s.rx else s.rx) →
    ((s.cfg.hasTx = false ∨ s.tx.run = false) → exec .tick s = .next s) ∧
    (s.cfg.hasTx = true → s.tx.run = true → 2 ≤ s.tx.tmr →
      exec .tick s = .next { s with tx := { s.tx with tmr := s.tx.tmr - 1 } }) ∧
    (s.cfg.hasTx = true → s.tx.run = true → s.tx.tmr = 1 → ∀ t : Tx,
      ((s.tx.ph = .setup ∧ t = { s.tx with strobeOut := true, ph := .pulse, tmr := s.cfg.tPulse }) ∨
        (s.tx.ph = .pulse ∧ t = { s.tx with strobeOut := false, ph := .dead, tmr := s.cfg.tDead }) ∨
        (s.tx.ph = .dead ∧ s.tx.i.toNat = 7 ∧
          t = { s.tx with ph := .gap, tmr := s.tx.period.toNat * s.cfg.ticksPerMs }) ∨
        (s.tx.ph = .dead ∧ s.tx.i.toNat < 7 ∧ ∃ b0 b1 : Byte,
          s.tx.buf.primary[s.tx.k]? = some b0 ∧ s.tx.buf.secondary[s.tx.k]? = some b1 ∧
          t = { s.tx with
            i := s.tx.i + 1, ph := .setup, tmr := s.cfg.tSetup, strobeOut := false
            dout := ⟨b0.getLsbD (s.tx.i.toNat + 1), b1.getLsbD (s.tx.i.toNat + 1)⟩ }) ∨
        (s.tx.ph = .gap ∧ ∃ (k : Nat) (b0 b1 : Byte), k = (s.tx.k + 1) % s.tx.buf.primary.length ∧
          s.tx.buf.primary[k]? = some b0 ∧ s.tx.buf.secondary[k]? = some b1 ∧
          t = { s.tx with
            k := k, i := 0, ph := .setup, tmr := s.cfg.tSetup, strobeOut := false
            dout := ⟨b0.getLsbD 0, b1.getLsbD 0⟩ })) →
      exec .tick s = .next { s with tx := t, rx := looped t })

/-- Propagate leaves the receiver's inputs at the driven levels, and runs EDGE, with the data lines already set, exactly
where the strobe rises (40_transmitter.md R96). -/
def Obligations.PropagateSetsDataBeforeStrobe : Prop :=
  ∀ (cap : Nat) (dout : Both Level) (strobe : Level) (r : Rx),
    (r.strobeIn = false ∧ strobe = true →
      propagate cap dout strobe r = { edge cap { r with din := dout } with strobeIn := true }) ∧
    (¬(r.strobeIn = false ∧ strobe = true) →
      propagate cap dout strobe r = { r with din := dout, strobeIn := strobe })

/-- The timing law (40_transmitter.md R93). Count TICKs from a TX_START that succeeded, with B = T_SETUP + T_PULSE + T_DEAD,
G = PERIOD × TICKS_PER_MS and S = 8B + G. For the n-th sample sent, of index n mod L, and bit i: the data outputs take bit i
at tick n·S + i·B; the strobe is still low one tick before, and high at, tick n·S + i·B + T_SETUP; it is still high one tick
before, and low at, T_PULSE ticks later. -/
def Obligations.TransmitterKeepsTheTimingLaw : Prop :=
  ∀ (s t : State) (n : Nat) (i : BitVec 3) (p : Nat),
    s.cfg.Legal → s.cfg.hasTx = true → s.tx.run = false → exec .txStart s = .next t → t.tx.run = true →
    p = n * (8 * (s.cfg.tSetup + s.cfg.tPulse + s.cfg.tDead) + s.tx.period.toNat * s.cfg.ticksPerMs) +
      i.toNat * (s.cfg.tSetup + s.cfg.tPulse + s.cfg.tDead) →
    (∃ u : State, ticks p t = .next u ∧ u.tx.i = i ∧ u.tx.k = n % s.tx.buf.primary.length ∧ u.tx.ph = .setup ∧
      u.tx.tmr = s.cfg.tSetup ∧ u.tx.strobeOut = false ∧
      (∀ c : Channel, ∃ b : Byte, (s.tx.buf.get c)[n % s.tx.buf.primary.length]? = some b ∧
        u.tx.dout.get c = b.getLsbD i.toNat)) ∧
    (∃ u : State, ticks (p + s.cfg.tSetup - 1) t = .next u ∧ u.tx.strobeOut = false) ∧
    (∃ u : State, ticks (p + s.cfg.tSetup) t = .next u ∧ u.tx.strobeOut = true ∧ u.tx.ph = .pulse) ∧
    (∃ u : State, ticks (p + s.cfg.tSetup + s.cfg.tPulse - 1) t = .next u ∧ u.tx.strobeOut = true) ∧
    (∃ u : State, ticks (p + s.cfg.tSetup + s.cfg.tPulse) t = .next u ∧ u.tx.strobeOut = false ∧ u.tx.ph = .dead)

/-- The loopback round trip (40_transmitter.md R95): with LOOPBACK and the receiver at position 0 when TX_START succeeds, at
the tick of sample n's last edge the bytes appended to each queue are the samples 0, 1, …, n of its buffer, the indices
taken modulo the buffer's length, where the queue has room for them. -/
def Obligations.LoopbackRoundTrip : Prop :=
  ∀ (s t : State) (n : Nat),
    s.cfg.Legal → s.cfg.loopback = true → s.cfg.hasTx = true → s.tx.run = false →
    s.rx.pos = ⟨0, 0⟩ → s.rx.acc = ⟨0, 0⟩ → exec .txStart s = .next t → t.tx.run = true →
    (∀ c : Channel, (s.rx.q.get c).length + n < s.cfg.cap) →
    ∃ u : State,
      ticks (n * (8 * (s.cfg.tSetup + s.cfg.tPulse + s.cfg.tDead) + s.tx.period.toNat * s.cfg.ticksPerMs) +
        7 * (s.cfg.tSetup + s.cfg.tPulse + s.cfg.tDead) + s.cfg.tSetup) t = .next u ∧
      ∀ c : Channel, ∃ bytes : List Byte,
        u.rx.q.get c = s.rx.q.get c ++ bytes ∧ bytes.length = n + 1 ∧
        ∀ m : Nat, m ≤ n → bytes[m]? = (s.tx.buf.get c)[m % s.tx.buf.primary.length]?

/-! ### Reset -/

/-- Every element holds its power-on value before any event (70_reset_and_hazards.md R148), for every choice of the
parameters, and State.reset is such a state. -/
def Obligations.PowerOnValues : Prop :=
  (∃ c : Config, State.reset = State.powerOn c) ∧
  ∀ c : Config, ∀ s : State, s = State.powerOn c →
    s.cfg = c ∧ s.rx.din = ⟨false, false⟩ ∧ s.rx.strobeIn = false ∧ s.rx.acc = ⟨0, 0⟩ ∧ s.rx.pos = ⟨0, 0⟩ ∧
    s.rx.q = ⟨[], []⟩ ∧ s.rx.sel = .primary ∧ s.rx.edgeCnt = 0 ∧ s.rx.dropCnt = ⟨0, 0⟩ ∧ s.rx.port = .idle ∧
    s.tx.buf = ⟨[], []⟩ ∧ s.tx.period = 0 ∧ s.tx.run = false ∧ s.tx.k = 0 ∧ s.tx.i = 0 ∧ s.tx.ph = .setup ∧
    s.tx.tmr = 0 ∧ s.tx.dout = ⟨false, false⟩ ∧ s.tx.strobeOut = false ∧ s.tx.oe = false

/-- RESET, the event word 0x40, gives every element its power-on value but the three line levels, with no response and no edge; a pending READ is
discarded (70_reset_and_hazards.md R149). Without a transmitter there is no transmitter state to write. -/
def Obligations.ResetKeepsOnlyTheLineLevels : Prop :=
  decodeEvent 0x40#8 = .ok .reset ∧
  ∀ s : State,
    (s.cfg.hasTx = true → exec .reset s = .next { s with
      rx := { Rx.powerOn with din := s.rx.din, strobeIn := s.rx.strobeIn }, tx := Tx.powerOn }) ∧
    (s.cfg.hasTx = false → exec .reset s = .next { s with
      rx := { Rx.powerOn with din := s.rx.din, strobeIn := s.rx.strobeIn } })

/-- In the step after power-on or RESET, from any state, every command and event is accepted (70_reset_and_hazards.md R150),
but for the two line events of ENV where LOOPBACK is true (40_transmitter.md R96). -/
def Obligations.EverythingIsAcceptedAfterReset : Prop :=
  ∀ (i : Instr) (s : State),
    (s.cfg.loopback = false ∨ ((∀ c v, i ≠ .setDin c v) ∧ ∀ v, i ≠ .setStrobe v)) →
    ((∃ t : State, exec i (State.powerOn s.cfg) = .next t) ∧
      ∃ t u : State, exec .reset s = .next t ∧ exec i t = .next u)

/-! ### Invariants and whole-machine rules -/

/-- Every bit of ACC[c] from POS[c] up is 0 at power-on, and every step keeps it so; then ACC[c] is 0 where POS[c] is 0
(10_state.md R24). -/
def Obligations.AccumulatorStaysClearAbovePos : Prop :=
  (∀ cfg : Config, (State.powerOn cfg).rx.AccClear) ∧
  (∀ s t : State, s.rx.AccClear → step s = .next t → t.rx.AccClear) ∧
  (∀ (s : State) (c : Channel), s.rx.AccClear → s.rx.pos.get c = 0 → s.rx.acc.get c = 0)

/-- POS[0] = POS[1] at power-on, and every step keeps it so (10_state.md R25). -/
def Obligations.PositionsStayEqual : Prop :=
  (∀ cfg : Config, (State.powerOn cfg).rx.PosEqual) ∧
  ∀ s t : State, s.rx.PosEqual → step s = .next t → t.rx.PosEqual

/-- POS[c] = EDGE_CNT mod 8 at power-on and after any RESET, and every step keeps it so, through the wrap of the counter
(41_edge_decoder.md R106). -/
def Obligations.PositionCountsTheEdges : Prop :=
  (∀ cfg : Config, (State.powerOn cfg).rx.PosCounts) ∧
  (∀ s t : State, exec .reset s = .next t → t.rx.PosCounts) ∧
  ∀ s t : State, s.rx.PosCounts → step s = .next t → t.rx.PosCounts

/-- The length of a queue is at most CAP at power-on, and no step makes it exceed CAP (10_state.md R26, 20_memory.md R40). -/
def Obligations.QueuesStayWithinCapacity : Prop :=
  (∀ cfg : Config, (State.powerOn cfg).rx.QueuesFit cfg.cap) ∧
  ∀ s t : State, s.rx.QueuesFit s.cfg.cap → step s = .next t → t.rx.QueuesFit t.cfg.cap

/-- All the invariants of the spec together, over every step of every block with legal parameters (10_state.md R24 to R26,
R31, R32, R35; 41_edge_decoder.md R106; 40_transmitter.md R96). -/
def Obligations.StepKeepsTheInvariant : Prop :=
  ∀ s t : State, s.Inv → step s = .next t → t.Inv

/-- The invariants hold at power-on, for every legal choice of the parameters, and at State.reset. -/
def Obligations.PowerOnHasTheInvariant : Prop :=
  (∀ c : Config, c.Legal → (State.powerOn c).Inv) ∧ State.reset.Inv

/-- No command or event traps (60_exceptions.md R128): from a state with the invariants no step ends in a fault, and a step
is refused only for a reserved event word or a line event of ENV under LOOPBACK. -/
def Obligations.NothingTraps : Prop :=
  ∀ s : State, s.Inv →
    NoFault (step s) ∧
    ∀ r : Refusal, step s = .refused r → r = .reservedEvent ∨ (r = .lineDrivenByLoopback ∧ s.cfg.loopback = true)

/-- The parameters are fixed for the life of a block (10_state.md R17), and a response once delivered stays delivered: a
step delivers at most one (30_encoding.md R60). -/
def Obligations.StepKeepsParametersAndDeliversAtMostOneResponse : Prop :=
  ∀ s t : State, step s = .next t →
    t.cfg = s.cfg ∧ (t.responses = s.responses ∨ ∃ r : Response, t.responses = s.responses ++ [r])

/-- The shape of a response (30_encoding.md R60): one that is not OK has VALUE 0 and no DATA, and DATA, where there is any,
has VALUE bytes and at most 65535. -/
def Obligations.ResponsesHaveTheirShape : Prop :=
  ∀ (s t : State) (r : Response), step s = .next t → t.responses = s.responses ++ [r] →
    (r.st ≠ .ok → r.value = 0 ∧ r.data = []) ∧
    (r.data ≠ [] → r.data.length = r.value.toNat) ∧ r.data.length ≤ 65535

/-- A command that fails answers (ST, 0, []) and changes no other state (60_exceptions.md R128). RESTART is no failure of
the event that delivers it: CANCEL ends the pending READ (42_read_interface.md R114). -/
def Obligations.FailingCommandsChangeNothing : Prop :=
  ∀ (i : Instr) (s t : State) (r : Response),
    exec i s = .next t → t.responses = s.responses ++ [r] → r.st ≠ .ok → r.st ≠ .restart →
    t = { s with responses := s.responses ++ [⟨r.st, 0, []⟩] }

/-- The transmitter and the receiver share no state (40_transmitter.md R99): without LOOPBACK no transmitter command and no
TICK changes the receiver; no other instruction but RESET changes the transmitter; what any instruction leaves in the
transmitter does not depend on the receiver; and what an instruction of the receiver leaves in it, and what it answers, does
not depend on the transmitter. -/
def Obligations.TransmitterAndReceiverShareNoState : Prop :=
  (∀ (i : Instr) (s t : State), (i.needsTx = true ∨ i = .tick) → s.cfg.loopback = false →
    exec i s = .next t → t.rx = s.rx) ∧
  (∀ (i : Instr) (s t : State), i.needsTx = false → i ≠ .tick → i ≠ .reset →
    exec i s = .next t → t.tx = s.tx) ∧
  (∀ (i : Instr) (s s' t t' : State), s.cfg = s'.cfg → s.tx = s'.tx →
    exec i s = .next t → exec i s' = .next t' → t.tx = t'.tx) ∧
  (∀ (i : Instr) (s s' t t' : State), i.needsTx = false → i ≠ .tick →
    s.cfg = s'.cfg → s.rx = s'.rx → s.responses = s'.responses →
    exec i s = .next t → exec i s' = .next t' → t.rx = t'.rx ∧ t.responses = t'.responses)

/-- What a step can do to a queue (20_memory.md R54, R45): leave it, append one byte at its back, remove bytes from its front
that are, in order, the DATA of the OK response it delivers, or, by RESET, empty it. -/
def Obligations.QueuesAreFirstInFirstOut : Prop :=
  ∀ (s t : State) (c : Channel), s.rx.PortLegal → step s = .next t →
    t.rx.q.get c = s.rx.q.get c ∨
    (∃ b : Byte, t.rx.q.get c = s.rx.q.get c ++ [b] ∧ t.responses = s.responses) ∨
    (∃ k : Nat, 1 ≤ k ∧ k ≤ (s.rx.q.get c).length ∧ t.rx.q.get c = (s.rx.q.get c).drop k ∧
      t.responses = s.responses ++ [⟨.ok, BitVec.ofNat 32 k, (s.rx.q.get c).take k⟩]) ∨
    (t.rx.q = ⟨[], []⟩ ∧ t.rx.edgeCnt = 0 ∧ t.rx.port = .idle ∧ t.responses = s.responses)

/-- Once COMPLETE is enabled it stays enabled, for the same READ, until the port is idle again: until COMPLETE, CANCEL or
RESET (42_read_interface.md R127). -/
def Obligations.CompleteStaysEnabled : Prop :=
  ∀ s t : State, completeEnabled s = true → step s = .next t →
    (completeEnabled t = true ∧ t.rx.port = s.rx.port) ∨ t.rx.port = .idle

/-- A pending READ ends in one of three ways (42_read_interface.md R116): OK with at least one byte from the front of its
latched queue, RESTART with no byte removed, or a RESET that discards it with no response. Until then no response is
delivered and SEL does not change (R125). -/
def Obligations.PendingReadEndsInOneOfThreeWays : Prop :=
  ∀ (s t : State) (ch : Channel) (n : Arg), s.rx.port = .pending ch n → n ≠ 0 → step s = .next t →
    (t.rx.port = .pending ch n ∧ t.responses = s.responses ∧ t.rx.sel = s.rx.sel) ∨
    (t.rx.port = .idle ∧ ∃ k : Nat, 1 ≤ k ∧ k ≤ n.toNat ∧ k ≤ (s.rx.q.get ch).length ∧
      t.rx.q.get ch = (s.rx.q.get ch).drop k ∧
      t.responses = s.responses ++ [⟨.ok, BitVec.ofNat 32 k, (s.rx.q.get ch).take k⟩]) ∨
    (t.rx.port = .idle ∧ t.rx.q = s.rx.q ∧ t.responses = s.responses ++ [⟨.restart, 0, []⟩]) ∨
    (t.rx = { Rx.powerOn with din := s.rx.din, strobeIn := s.rx.strobeIn } ∧ t.responses = s.responses)

/-- While the transmitter runs, no step but TX_STOP or RESET ends it or changes the buffers or the period (40_transmitter.md
R92, 20_memory.md R57). -/
def Obligations.RunningTransmitterIsNotChanged : Prop :=
  ∀ (i : Instr) (s t : State), s.tx.run = true → i ≠ .txStop → i ≠ .reset → exec i s = .next t →
    t.tx.run = true ∧ t.tx.buf = s.tx.buf ∧ t.tx.period = s.tx.period

/-- The data outputs change only in a step that enters SETUP, all T_SETUP ticks of it still to come, or that releases the
lines, which leaves the sequencer in SETUP too; and the strobe output is low then (40_transmitter.md R82, R80, R88). -/
def Obligations.DataChangesOnlyOnEnteringSetup : Prop :=
  ∀ s t : State, step s = .next t → t.tx.dout ≠ s.tx.dout →
    t.tx.ph = .setup ∧ t.tx.strobeOut = false ∧
      ((t.tx.run = true ∧ t.tx.tmr = t.cfg.tSetup) ∨ (t.tx.run = false ∧ t.tx.oe = false))

/-- With LOOPBACK and driven outputs the receiver's inputs are at the transmitter's levels, and every step keeps it so
(40_transmitter.md R96). -/
def Obligations.StepKeepsTheLoopbackLinesEqual : Prop :=
  ∀ s t : State, s.LinesLooped → step s = .next t → t.LinesLooped

/-! ### Derived signals, codes and notation -/

/-- EMPTY[c] says that Q[c] has length 0, FULL[c] that it has length CAP, and DAV[c] is not EMPTY[c]; COMPLETE is enabled
exactly where a READ is pending on a channel with DAV[c] = 1 (10_state.md R27, 42_read_interface.md R113). -/
def Obligations.DavFollowsTheQueue : Prop :=
  (∀ (s : State) (c : Channel),
    (s.isEmpty c = true ↔ (s.rx.q.get c).length = 0) ∧ (s.isFull c = true ↔ (s.rx.q.get c).length = s.cfg.cap) ∧
    (s.dav c = true ↔ ¬ s.isEmpty c = true)) ∧
  (∀ s : State, completeEnabled s = true ↔ ∃ (ch : Channel) (n : Arg), s.rx.port = .pending ch n ∧ s.dav ch = true)

/-- The status codes (30_encoding.md R62); the codes 8 to 15 are never produced. -/
def Obligations.StatusCodesOfTheSpec : Prop :=
  (statusCode .ok = 0 ∧ statusCode .wouldBlock = 1 ∧ statusCode .restart = 2 ∧ statusCode .inval = 3 ∧
    statusCode .precond = 4 ∧ statusCode .illegal = 5 ∧ statusCode .full = 6 ∧ statusCode .busy = 7) ∧
  ∀ st : Status, (statusCode st).toNat < 8

/-- The pseudo-instruction EDGE b0, b1 expands to the four words 0x10 | b0, 0x12 | b1, 0x20 and 0x21, and an operand that is
no level has no encoding (30_encoding.md R77, R76). -/
def Obligations.EdgeExpandsToFourWords : Prop :=
  (∀ b0 b1 : Nat, b0 ≤ 1 → b1 ≤ 1 →
    assembleLine (.edge b0 b1) = some [.event (BitVec.ofNat 8 (0x10 + b0)), .event (BitVec.ofNat 8 (0x12 + b1)),
      .event 0x20, .event 0x21]) ∧
  (∀ b0 b1 : Nat, (2 ≤ b0 ∨ 2 ≤ b1) → assembleLine (.edge b0 b1) = none)
end

