-- ==== Sys2Proof/Laws/Decode.lean ====
section
/-! SUPPORT. The fields of a command word that the encoder makes, and the word that four fields make. -/

namespace Sys2Proof

@[simp] theorem fieldOp_commandWord (op : BitVec 4) (m : Bool) (arg : Arg) : fieldOp (commandWord op m arg) = op := by
  have h : ∀ i, i < 4 → arg.getLsbD (28 + i) = false := fun i hi => BitVec.getLsbD_of_ge _ _ (by omega)
  ext i hi
  simp [fieldOp, commandWord, h i hi, show ¬(28 + i < 27) by omega, show ¬(28 + i - 27 = 0) by omega,
    show 28 + i < 32 by omega, BitVec.getLsbD_eq_getElem hi]

@[simp] theorem fieldM_commandWord (op : BitVec 4) (m : Bool) (arg : Arg) : fieldM (commandWord op m arg) = m := by
  simp [fieldM, commandWord]

@[simp] theorem fieldZ_commandWord (op : BitVec 4) (m : Bool) (arg : Arg) : fieldZ (commandWord op m arg) = 0 := by
  ext i hi
  simp [fieldZ, commandWord, show 16 + i < 27 by omega, show 16 + i < 28 by omega]

@[simp] theorem fieldArg_commandWord (op : BitVec 4) (m : Bool) (arg : Arg) : fieldArg (commandWord op m arg) = arg := by
  ext i hi
  simp [fieldArg, commandWord, show i < 27 by omega, show i < 28 by omega, show i < 32 by omega,
    BitVec.getLsbD_eq_getElem hi]

@[simp] theorem argHi_byteArg (b : Byte) : argHi (byteArg b) = 0 := by
  ext i hi
  simp [argHi, byteArg]

@[simp] theorem argLo_byteArg (b : Byte) : argLo (byteArg b) = b := by
  ext i hi
  simp [argLo, byteArg, show i < 16 by omega, BitVec.getLsbD_eq_getElem hi]

/-- A word whose reserved field Z is 0 is made of its other fields. -/
theorem commandWord_fields {w : Word} (h : fieldZ w = 0) : commandWord (fieldOp w) (fieldM w) (fieldArg w) = w := by
  have hz : ∀ j, j < 11 → w.getLsbD (16 + j) = false := by
    intro j hj
    have := congrArg (fun x => x.getLsbD j) h
    simpa [fieldZ, hj] using this
  ext i hi
  simp [commandWord, fieldOp, fieldM, fieldArg, BitVec.getLsbD_extractLsb']
  rcases Nat.lt_or_ge i 16 with h1 | h1
  · simp [h1, show i < 27 by omega, show i < 28 by omega, BitVec.getLsbD_eq_getElem hi]
  · rcases Nat.lt_or_ge i 27 with h2 | h2
    · have := hz (i - 16) (by omega)
      rw [show 16 + (i - 16) = i by omega] at this
      simp [h2, show i < 28 by omega, show ¬ i < 16 by omega, ← BitVec.getLsbD_eq_getElem hi, this]
    · rcases Nat.eq_or_lt_of_le h2 with h3 | h3
      · subst h3
        simp
      · simp [show ¬ i < 27 by omega, show ¬ i < 28 by omega, show i - 28 < 4 by omega, show i - 27 ≠ 0 by omega,
          show ¬ i < 16 by omega, show 28 + (i - 28) = i by omega, BitVec.getLsbD_eq_getElem hi]

/-- An operand whose high byte is 0 is its low byte, widened. -/
theorem byteArg_argLo {a : Arg} (h : argHi a = 0) : byteArg (argLo a) = a := by
  have hz : ∀ j, j < 8 → a.getLsbD (8 + j) = false := by
    intro j hj
    have := congrArg (fun x => x.getLsbD j) h
    simpa [argHi, hj] using this
  ext i hi
  simp [byteArg, argLo, BitVec.getLsbD_extractLsb']
  rcases Nat.lt_or_ge i 8 with h1 | h1
  · simp [h1, BitVec.getLsbD_eq_getElem hi]
  · have := hz (i - 8) (by omega)
    rw [show 8 + (i - 8) = i by omega] at this
    simp [show ¬ i < 8 by omega, ← BitVec.getLsbD_eq_getElem hi, this]

/-- What an event word decodes to is an event: its encoding is an event word. -/
theorem decodeEvent_isEvent {w : BitVec 8} {i : Instr} (h : decodeEvent w = .ok i) : ∃ v, encode i = .event v := by
  unfold decodeEvent at h
  dsimp only at h
  repeat' split at h
  all_goals first
    | (cases h; exact ⟨_, rfl⟩)
    | cases h

end Sys2Proof
end

