-- ==== Sys2Proof/Laws/State.lean ====
section
/-! SUPPORT. What each named update leaves in each field, and reading one channel of a pair after writing one: true by rfl,
so that no later proof unfolds a record update. -/

namespace Sys2Proof

@[simp] theorem Both.get_primary {α : Type} (x : Both α) : x.get .primary = x.primary := rfl
@[simp] theorem Both.get_secondary {α : Type} (x : Both α) : x.get .secondary = x.secondary := rfl
@[simp] theorem Both.set_primary {α : Type} (x : Both α) (v : α) : x.set .primary v = ⟨v, x.secondary⟩ := rfl
@[simp] theorem Both.set_secondary {α : Type} (x : Both α) (v : α) : x.set .secondary v = ⟨x.primary, v⟩ := rfl

@[simp] theorem Both.get_set_same {α : Type} (x : Both α) (c : Channel) (v : α) : (x.set c v).get c = v := by
  cases c <;> rfl

theorem Both.get_set_of_ne {α : Type} (x : Both α) {c d : Channel} (v : α) (h : d ≠ c) : (x.set c v).get d = x.get d := by
  cases c <;> cases d <;> first | rfl | exact absurd rfl h

@[simp] theorem Both.get_same {α : Type} (v : α) (c : Channel) : (Both.same v).get c = v := by
  cases c <;> rfl

@[simp] theorem Both.same_primary {α : Type} (v : α) : (Both.same v).primary = v := rfl
@[simp] theorem Both.same_secondary {α : Type} (v : α) : (Both.same v).secondary = v := rfl

theorem Both.ext_get {α : Type} {x y : Both α} (h : ∀ c, x.get c = y.get c) : x = y := by
  cases x
  cases y
  exact congrArg₂ Both.mk (h .primary) (h .secondary)

end Sys2Proof

namespace Sys2Proof.Machine

open Sys2Proof


/-! ### respond -/

@[simp] theorem respond_cfg (s : State) (st : Status) (v : Word) (d : List Byte) :
    (s.respond st v d).cfg = s.cfg := rfl
@[simp] theorem respond_rx (s : State) (st : Status) (v : Word) (d : List Byte) :
    (s.respond st v d).rx = s.rx := rfl
@[simp] theorem respond_tx (s : State) (st : Status) (v : Word) (d : List Byte) :
    (s.respond st v d).tx = s.tx := rfl
@[simp] theorem respond_inputs (s : State) (st : Status) (v : Word) (d : List Byte) :
    (s.respond st v d).inputs = s.inputs := rfl
@[simp] theorem respond_responses (s : State) (st : Status) (v : Word) (d : List Byte) :
    (s.respond st v d).responses = s.responses ++ [⟨st, v, d⟩] := rfl

/-! ### failed -/

@[simp] theorem failed_cfg (s : State) (st : Status) :
    (s.failed st).cfg = s.cfg := rfl
@[simp] theorem failed_rx (s : State) (st : Status) :
    (s.failed st).rx = s.rx := rfl
@[simp] theorem failed_tx (s : State) (st : Status) :
    (s.failed st).tx = s.tx := rfl
@[simp] theorem failed_inputs (s : State) (st : Status) :
    (s.failed st).inputs = s.inputs := rfl
@[simp] theorem failed_responses (s : State) (st : Status) :
    (s.failed st).responses = s.responses ++ [⟨st, 0, []⟩] := rfl

/-! ### presentFirst -/

@[simp] theorem presentFirst_cfg (s : State) (x : Input) :
    (s.presentFirst x).cfg = s.cfg := rfl
@[simp] theorem presentFirst_rx (s : State) (x : Input) :
    (s.presentFirst x).rx = s.rx := rfl
@[simp] theorem presentFirst_tx (s : State) (x : Input) :
    (s.presentFirst x).tx = s.tx := rfl
@[simp] theorem presentFirst_inputs (s : State) (x : Input) :
    (s.presentFirst x).inputs = x :: s.inputs := rfl
@[simp] theorem presentFirst_responses (s : State) (x : Input) :
    (s.presentFirst x).responses = s.responses := rfl

/-! ### loadProgram -/

@[simp] theorem loadProgram_cfg (s : State) (xs : List Input) :
    (s.loadProgram xs).cfg = s.cfg := rfl
@[simp] theorem loadProgram_rx (s : State) (xs : List Input) :
    (s.loadProgram xs).rx = s.rx := rfl
@[simp] theorem loadProgram_tx (s : State) (xs : List Input) :
    (s.loadProgram xs).tx = s.tx := rfl
@[simp] theorem loadProgram_inputs (s : State) (xs : List Input) :
    (s.loadProgram xs).inputs = s.inputs ++ xs := rfl
@[simp] theorem loadProgram_responses (s : State) (xs : List Input) :
    (s.loadProgram xs).responses = s.responses := rfl

/-! ### Receiver: a data level -/

@[simp] theorem rx_setDin_din (r : Rx) (c : Channel) (v : Level) :
    (r.setDin c v).din = r.din.set c v := rfl
@[simp] theorem rx_setDin_strobeIn (r : Rx) (c : Channel) (v : Level) :
    (r.setDin c v).strobeIn = r.strobeIn := rfl
@[simp] theorem rx_setDin_acc (r : Rx) (c : Channel) (v : Level) :
    (r.setDin c v).acc = r.acc := rfl
@[simp] theorem rx_setDin_pos (r : Rx) (c : Channel) (v : Level) :
    (r.setDin c v).pos = r.pos := rfl
@[simp] theorem rx_setDin_q (r : Rx) (c : Channel) (v : Level) :
    (r.setDin c v).q = r.q := rfl
@[simp] theorem rx_setDin_sel (r : Rx) (c : Channel) (v : Level) :
    (r.setDin c v).sel = r.sel := rfl
@[simp] theorem rx_setDin_edgeCnt (r : Rx) (c : Channel) (v : Level) :
    (r.setDin c v).edgeCnt = r.edgeCnt := rfl
@[simp] theorem rx_setDin_dropCnt (r : Rx) (c : Channel) (v : Level) :
    (r.setDin c v).dropCnt = r.dropCnt := rfl
@[simp] theorem rx_setDin_port (r : Rx) (c : Channel) (v : Level) :
    (r.setDin c v).port = r.port := rfl

/-! ### Receiver: a counted edge -/

@[simp] theorem rx_countEdge_din (r : Rx) :
    (r.countEdge).din = r.din := rfl
@[simp] theorem rx_countEdge_strobeIn (r : Rx) :
    (r.countEdge).strobeIn = r.strobeIn := rfl
@[simp] theorem rx_countEdge_acc (r : Rx) :
    (r.countEdge).acc = r.acc := rfl
@[simp] theorem rx_countEdge_pos (r : Rx) :
    (r.countEdge).pos = r.pos := rfl
@[simp] theorem rx_countEdge_q (r : Rx) :
    (r.countEdge).q = r.q := rfl
@[simp] theorem rx_countEdge_sel (r : Rx) :
    (r.countEdge).sel = r.sel := rfl
@[simp] theorem rx_countEdge_edgeCnt (r : Rx) :
    (r.countEdge).edgeCnt = r.edgeCnt + 1 := rfl
@[simp] theorem rx_countEdge_dropCnt (r : Rx) :
    (r.countEdge).dropCnt = r.dropCnt := rfl
@[simp] theorem rx_countEdge_port (r : Rx) :
    (r.countEdge).port = r.port := rfl

/-! ### Receiver: a counted drop -/

@[simp] theorem rx_countDrop_din (r : Rx) (c : Channel) :
    (r.countDrop c).din = r.din := rfl
@[simp] theorem rx_countDrop_strobeIn (r : Rx) (c : Channel) :
    (r.countDrop c).strobeIn = r.strobeIn := rfl
@[simp] theorem rx_countDrop_acc (r : Rx) (c : Channel) :
    (r.countDrop c).acc = r.acc := rfl
@[simp] theorem rx_countDrop_pos (r : Rx) (c : Channel) :
    (r.countDrop c).pos = r.pos := rfl
@[simp] theorem rx_countDrop_q (r : Rx) (c : Channel) :
    (r.countDrop c).q = r.q := rfl
@[simp] theorem rx_countDrop_sel (r : Rx) (c : Channel) :
    (r.countDrop c).sel = r.sel := rfl
@[simp] theorem rx_countDrop_edgeCnt (r : Rx) (c : Channel) :
    (r.countDrop c).edgeCnt = r.edgeCnt := rfl
@[simp] theorem rx_countDrop_dropCnt (r : Rx) (c : Channel) :
    (r.countDrop c).dropCnt = r.dropCnt.set c (r.dropCnt.get c + 1) := rfl
@[simp] theorem rx_countDrop_port (r : Rx) (c : Channel) :
    (r.countDrop c).port = r.port := rfl

/-! ### Receiver: an accumulator and its position -/

@[simp] theorem rx_setAcc_din (r : Rx) (c : Channel) (a : Byte) (p : BitVec 3) :
    (r.setAcc c a p).din = r.din := rfl
@[simp] theorem rx_setAcc_strobeIn (r : Rx) (c : Channel) (a : Byte) (p : BitVec 3) :
    (r.setAcc c a p).strobeIn = r.strobeIn := rfl
@[simp] theorem rx_setAcc_acc (r : Rx) (c : Channel) (a : Byte) (p : BitVec 3) :
    (r.setAcc c a p).acc = r.acc.set c a := rfl
@[simp] theorem rx_setAcc_pos (r : Rx) (c : Channel) (a : Byte) (p : BitVec 3) :
    (r.setAcc c a p).pos = r.pos.set c p := rfl
@[simp] theorem rx_setAcc_q (r : Rx) (c : Channel) (a : Byte) (p : BitVec 3) :
    (r.setAcc c a p).q = r.q := rfl
@[simp] theorem rx_setAcc_sel (r : Rx) (c : Channel) (a : Byte) (p : BitVec 3) :
    (r.setAcc c a p).sel = r.sel := rfl
@[simp] theorem rx_setAcc_edgeCnt (r : Rx) (c : Channel) (a : Byte) (p : BitVec 3) :
    (r.setAcc c a p).edgeCnt = r.edgeCnt := rfl
@[simp] theorem rx_setAcc_dropCnt (r : Rx) (c : Channel) (a : Byte) (p : BitVec 3) :
    (r.setAcc c a p).dropCnt = r.dropCnt := rfl
@[simp] theorem rx_setAcc_port (r : Rx) (c : Channel) (a : Byte) (p : BitVec 3) :
    (r.setAcc c a p).port = r.port := rfl

/-! ### Receiver: a dequeue -/

@[simp] theorem qPop_din (c : Channel) (k : Nat) (r : Rx) :
    (qPop c k r).din = r.din := rfl
@[simp] theorem qPop_strobeIn (c : Channel) (k : Nat) (r : Rx) :
    (qPop c k r).strobeIn = r.strobeIn := rfl
@[simp] theorem qPop_acc (c : Channel) (k : Nat) (r : Rx) :
    (qPop c k r).acc = r.acc := rfl
@[simp] theorem qPop_pos (c : Channel) (k : Nat) (r : Rx) :
    (qPop c k r).pos = r.pos := rfl
@[simp] theorem qPop_q (c : Channel) (k : Nat) (r : Rx) :
    (qPop c k r).q = r.q.set c ((r.q.get c).drop k) := rfl
@[simp] theorem qPop_sel (c : Channel) (k : Nat) (r : Rx) :
    (qPop c k r).sel = r.sel := rfl
@[simp] theorem qPop_edgeCnt (c : Channel) (k : Nat) (r : Rx) :
    (qPop c k r).edgeCnt = r.edgeCnt := rfl
@[simp] theorem qPop_dropCnt (c : Channel) (k : Nat) (r : Rx) :
    (qPop c k r).dropCnt = r.dropCnt := rfl
@[simp] theorem qPop_port (c : Channel) (k : Nat) (r : Rx) :
    (qPop c k r).port = r.port := rfl

/-! ### Receiver: RESET -/

@[simp] theorem rxReset_din (r : Rx) :
    (rxReset r).din = r.din := rfl
@[simp] theorem rxReset_strobeIn (r : Rx) :
    (rxReset r).strobeIn = r.strobeIn := rfl
@[simp] theorem rxReset_acc (r : Rx) :
    (rxReset r).acc = Both.same 0 := rfl
@[simp] theorem rxReset_pos (r : Rx) :
    (rxReset r).pos = Both.same 0 := rfl
@[simp] theorem rxReset_q (r : Rx) :
    (rxReset r).q = Both.same [] := rfl
@[simp] theorem rxReset_sel (r : Rx) :
    (rxReset r).sel = .primary := rfl
@[simp] theorem rxReset_edgeCnt (r : Rx) :
    (rxReset r).edgeCnt = 0 := rfl
@[simp] theorem rxReset_dropCnt (r : Rx) :
    (rxReset r).dropCnt = Both.same 0 := rfl
@[simp] theorem rxReset_port (r : Rx) :
    (rxReset r).port = .idle := rfl

/-! ### Transmitter: a loaded byte -/

@[simp] theorem txAppend_buf (c : Channel) (b : Byte) (t : Tx) :
    (txAppend c b t).buf = t.buf.set c (t.buf.get c ++ [b]) := rfl
@[simp] theorem txAppend_period (c : Channel) (b : Byte) (t : Tx) :
    (txAppend c b t).period = t.period := rfl
@[simp] theorem txAppend_run (c : Channel) (b : Byte) (t : Tx) :
    (txAppend c b t).run = t.run := rfl
@[simp] theorem txAppend_k (c : Channel) (b : Byte) (t : Tx) :
    (txAppend c b t).k = t.k := rfl
@[simp] theorem txAppend_i (c : Channel) (b : Byte) (t : Tx) :
    (txAppend c b t).i = t.i := rfl
@[simp] theorem txAppend_ph (c : Channel) (b : Byte) (t : Tx) :
    (txAppend c b t).ph = t.ph := rfl
@[simp] theorem txAppend_tmr (c : Channel) (b : Byte) (t : Tx) :
    (txAppend c b t).tmr = t.tmr := rfl
@[simp] theorem txAppend_dout (c : Channel) (b : Byte) (t : Tx) :
    (txAppend c b t).dout = t.dout := rfl
@[simp] theorem txAppend_strobeOut (c : Channel) (b : Byte) (t : Tx) :
    (txAppend c b t).strobeOut = t.strobeOut := rfl
@[simp] theorem txAppend_oe (c : Channel) (b : Byte) (t : Tx) :
    (txAppend c b t).oe = t.oe := rfl

/-! ### Transmitter: PULSE -/

@[simp] theorem enterPulse_buf (cfg : Config) (t : Tx) :
    (enterPulse cfg t).buf = t.buf := rfl
@[simp] theorem enterPulse_period (cfg : Config) (t : Tx) :
    (enterPulse cfg t).period = t.period := rfl
@[simp] theorem enterPulse_run (cfg : Config) (t : Tx) :
    (enterPulse cfg t).run = t.run := rfl
@[simp] theorem enterPulse_k (cfg : Config) (t : Tx) :
    (enterPulse cfg t).k = t.k := rfl
@[simp] theorem enterPulse_i (cfg : Config) (t : Tx) :
    (enterPulse cfg t).i = t.i := rfl
@[simp] theorem enterPulse_ph (cfg : Config) (t : Tx) :
    (enterPulse cfg t).ph = .pulse := rfl
@[simp] theorem enterPulse_tmr (cfg : Config) (t : Tx) :
    (enterPulse cfg t).tmr = cfg.tPulse := rfl
@[simp] theorem enterPulse_dout (cfg : Config) (t : Tx) :
    (enterPulse cfg t).dout = t.dout := rfl
@[simp] theorem enterPulse_strobeOut (cfg : Config) (t : Tx) :
    (enterPulse cfg t).strobeOut = true := rfl
@[simp] theorem enterPulse_oe (cfg : Config) (t : Tx) :
    (enterPulse cfg t).oe = t.oe := rfl

/-! ### Transmitter: DEAD -/

@[simp] theorem enterDead_buf (cfg : Config) (t : Tx) :
    (enterDead cfg t).buf = t.buf := rfl
@[simp] theorem enterDead_period (cfg : Config) (t : Tx) :
    (enterDead cfg t).period = t.period := rfl
@[simp] theorem enterDead_run (cfg : Config) (t : Tx) :
    (enterDead cfg t).run = t.run := rfl
@[simp] theorem enterDead_k (cfg : Config) (t : Tx) :
    (enterDead cfg t).k = t.k := rfl
@[simp] theorem enterDead_i (cfg : Config) (t : Tx) :
    (enterDead cfg t).i = t.i := rfl
@[simp] theorem enterDead_ph (cfg : Config) (t : Tx) :
    (enterDead cfg t).ph = .dead := rfl
@[simp] theorem enterDead_tmr (cfg : Config) (t : Tx) :
    (enterDead cfg t).tmr = cfg.tDead := rfl
@[simp] theorem enterDead_dout (cfg : Config) (t : Tx) :
    (enterDead cfg t).dout = t.dout := rfl
@[simp] theorem enterDead_strobeOut (cfg : Config) (t : Tx) :
    (enterDead cfg t).strobeOut = false := rfl
@[simp] theorem enterDead_oe (cfg : Config) (t : Tx) :
    (enterDead cfg t).oe = t.oe := rfl

/-! ### Transmitter: GAP -/

@[simp] theorem enterGap_buf (cfg : Config) (t : Tx) :
    (enterGap cfg t).buf = t.buf := rfl
@[simp] theorem enterGap_period (cfg : Config) (t : Tx) :
    (enterGap cfg t).period = t.period := rfl
@[simp] theorem enterGap_run (cfg : Config) (t : Tx) :
    (enterGap cfg t).run = t.run := rfl
@[simp] theorem enterGap_k (cfg : Config) (t : Tx) :
    (enterGap cfg t).k = t.k := rfl
@[simp] theorem enterGap_i (cfg : Config) (t : Tx) :
    (enterGap cfg t).i = t.i := rfl
@[simp] theorem enterGap_ph (cfg : Config) (t : Tx) :
    (enterGap cfg t).ph = .gap := rfl
@[simp] theorem enterGap_tmr (cfg : Config) (t : Tx) :
    (enterGap cfg t).tmr = t.period.toNat * cfg.ticksPerMs := rfl
@[simp] theorem enterGap_dout (cfg : Config) (t : Tx) :
    (enterGap cfg t).dout = t.dout := rfl
@[simp] theorem enterGap_strobeOut (cfg : Config) (t : Tx) :
    (enterGap cfg t).strobeOut = t.strobeOut := rfl
@[simp] theorem enterGap_oe (cfg : Config) (t : Tx) :
    (enterGap cfg t).oe = t.oe := rfl

/-! ### Transmitter: TX_STOP -/

@[simp] theorem txStopped_buf (t : Tx) :
    (txStopped t).buf = Both.same [] := rfl
@[simp] theorem txStopped_period (t : Tx) :
    (txStopped t).period = t.period := rfl
@[simp] theorem txStopped_run (t : Tx) :
    (txStopped t).run = false := rfl
@[simp] theorem txStopped_k (t : Tx) :
    (txStopped t).k = 0 := rfl
@[simp] theorem txStopped_i (t : Tx) :
    (txStopped t).i = 0 := rfl
@[simp] theorem txStopped_ph (t : Tx) :
    (txStopped t).ph = .setup := rfl
@[simp] theorem txStopped_tmr (t : Tx) :
    (txStopped t).tmr = 0 := rfl
@[simp] theorem txStopped_dout (t : Tx) :
    (txStopped t).dout = Both.same false := rfl
@[simp] theorem txStopped_strobeOut (t : Tx) :
    (txStopped t).strobeOut = false := rfl
@[simp] theorem txStopped_oe (t : Tx) :
    (txStopped t).oe = false := rfl

/-! ### Transmitter: RESET -/

@[simp] theorem txReset_buf (t : Tx) :
    (txReset t).buf = Both.same [] := rfl
@[simp] theorem txReset_period (t : Tx) :
    (txReset t).period = 0 := rfl
@[simp] theorem txReset_run (t : Tx) :
    (txReset t).run = false := rfl
@[simp] theorem txReset_k (t : Tx) :
    (txReset t).k = 0 := rfl
@[simp] theorem txReset_i (t : Tx) :
    (txReset t).i = 0 := rfl
@[simp] theorem txReset_ph (t : Tx) :
    (txReset t).ph = .setup := rfl
@[simp] theorem txReset_tmr (t : Tx) :
    (txReset t).tmr = 0 := rfl
@[simp] theorem txReset_dout (t : Tx) :
    (txReset t).dout = Both.same false := rfl
@[simp] theorem txReset_strobeOut (t : Tx) :
    (txReset t).strobeOut = false := rfl
@[simp] theorem txReset_oe (t : Tx) :
    (txReset t).oe = false := rfl

end Sys2Proof.Machine
end

