-- ==== Sys2Proof/Laws/Ops.lean ====
section
/-! SUPPORT. For each shared operation one lemma that says once what it can do; later proofs cite these instead of unfolding
the operation. -/

namespace Sys2Proof.Machine

open Sys2Proof

/-! ### Queues -/

theorem pushResult_of_room {cap : Nat} {c : Channel} {r : Rx} (h : (r.q.get c).length < cap) :
    pushResult cap c r = .appended := if_pos h

theorem pushResult_of_full {cap : Nat} {c : Channel} {r : Rx} (h : cap ≤ (r.q.get c).length) :
    pushResult cap c r = .dropped := if_neg (Nat.not_lt.mpr h)

/-- A byte emitted into a queue with room is appended. -/
theorem emit_of_room {cap : Nat} {c : Channel} {b : Byte} {r : Rx} (h : (r.q.get c).length < cap) :
    emit cap c b r = { r with q := r.q.set c (r.q.get c ++ [b]) } := by
  simp [emit, qPush, pushResult_of_room h]

/-- A byte emitted into a full queue is dropped and counted. -/
theorem emit_of_full {cap : Nat} {c : Channel} {b : Byte} {r : Rx} (h : cap ≤ (r.q.get c).length) :
    emit cap c b r = r.countDrop c := by
  simp [emit, pushResult_of_full h]

/-- The dequeue of READ and COMPLETE, written out. -/
theorem deliver_eq (ch : Channel) (n : Arg) (s : State) :
    deliver ch n s = { s with
      rx := qPop ch (readLength ch n s.rx) s.rx
      responses := s.responses ++
        [⟨.ok, BitVec.ofNat 32 (readLength ch n s.rx), qFront ch (readLength ch n s.rx) s.rx⟩] } := rfl

/-! ### The decoder step -/

/-- What EDGE leaves alone for one channel's part: everything that is not that channel's. -/
theorem edgeChannel_other {cap : Nat} {c : Channel} {r : Rx} :
    (edgeChannel cap c r).din = r.din ∧ (edgeChannel cap c r).strobeIn = r.strobeIn ∧
    (edgeChannel cap c r).sel = r.sel ∧ (edgeChannel cap c r).port = r.port ∧
    (edgeChannel cap c r).edgeCnt = r.edgeCnt ∧
    ∀ d, d ≠ c → (edgeChannel cap c r).acc.get d = r.acc.get d ∧ (edgeChannel cap c r).pos.get d = r.pos.get d ∧
      (edgeChannel cap c r).q.get d = r.q.get d ∧ (edgeChannel cap c r).dropCnt.get d = r.dropCnt.get d := by
  unfold edgeChannel
  dsimp only
  split
  · by_cases h : (r.q.get c).length < cap
    · rw [emit_of_room h]
      exact ⟨rfl, rfl, rfl, rfl, rfl, fun d hd => ⟨Both.get_set_of_ne _ _ hd, Both.get_set_of_ne _ _ hd,
        Both.get_set_of_ne _ _ hd, rfl⟩⟩
    · rw [emit_of_full (Nat.not_lt.mp h)]
      exact ⟨rfl, rfl, rfl, rfl, rfl, fun d hd => ⟨Both.get_set_of_ne _ _ hd, Both.get_set_of_ne _ _ hd,
        rfl, Both.get_set_of_ne _ _ hd⟩⟩
  · exact ⟨rfl, rfl, rfl, rfl, rfl, fun d hd => ⟨Both.get_set_of_ne _ _ hd, Both.get_set_of_ne _ _ hd, rfl, rfl⟩⟩

/-- Before the 8th bit: the bit is ORed in and the position advances. -/
theorem edgeChannel_of_lt {cap : Nat} {c : Channel} {r : Rx} (h : (r.pos.get c).toNat < 7) :
    edgeChannel cap c r = r.setAcc c (accumulated c r) (BitVec.ofNat 3 ((r.pos.get c).toNat + 1)) :=
  if_neg (by omega)

/-- At the 8th bit: the byte is emitted, and the accumulator and position are cleared. -/
theorem edgeChannel_of_eq {cap : Nat} {c : Channel} {r : Rx} (h : (r.pos.get c).toNat = 7) :
    edgeChannel cap c r = (emit cap c (accumulated c r) r).setAcc c 0 0 :=
  if_pos (by omega)

/-- EDGE as one channel sees it: the other channel's part does not matter. -/
theorem edge_get {cap : Nat} (c : Channel) (r : Rx) :
    (edge cap r).acc.get c = (edgeChannel cap c r).acc.get c ∧
    (edge cap r).pos.get c = (edgeChannel cap c r).pos.get c ∧
    (edge cap r).q.get c = (edgeChannel cap c r).q.get c ∧
    (edge cap r).dropCnt.get c = (edgeChannel cap c r).dropCnt.get c := by
  have local_eq : ∀ (d : Channel) (x y : Rx), x.din.get d = y.din.get d → x.acc.get d = y.acc.get d →
      x.pos.get d = y.pos.get d → x.q.get d = y.q.get d → x.dropCnt.get d = y.dropCnt.get d →
      (edgeChannel cap d x).acc.get d = (edgeChannel cap d y).acc.get d ∧
      (edgeChannel cap d x).pos.get d = (edgeChannel cap d y).pos.get d ∧
      (edgeChannel cap d x).q.get d = (edgeChannel cap d y).q.get d ∧
      (edgeChannel cap d x).dropCnt.get d = (edgeChannel cap d y).dropCnt.get d := by
    intro d x y h1 h2 h3 h4 h5
    have ha : accumulated d x = accumulated d y := by simp [accumulated, h1, h2, h3]
    unfold edgeChannel
    dsimp only
    rw [ha, h3]
    split
    · by_cases h : (x.q.get d).length < cap
      · rw [emit_of_room h, emit_of_room (h4 ▸ h)]
        simp [h4, h5]
      · rw [emit_of_full (Nat.not_lt.mp h), emit_of_full (h4 ▸ Nat.not_lt.mp h)]
        simp [h4, h5]
    · simp [h4, h5]
  have step2 := local_eq .secondary (edgeChannel cap .primary r.countEdge) r
    (by rw [edgeChannel_other.1]; rfl) (edgeChannel_other.2.2.2.2.2 .secondary (by decide)).1
    (edgeChannel_other.2.2.2.2.2 .secondary (by decide)).2.1 (edgeChannel_other.2.2.2.2.2 .secondary (by decide)).2.2.1
    (edgeChannel_other.2.2.2.2.2 .secondary (by decide)).2.2.2
  have step1 := local_eq .primary r.countEdge r rfl rfl rfl rfl rfl
  have after := (edgeChannel_other (cap := cap) (c := .secondary)
    (r := edgeChannel cap .primary r.countEdge)).2.2.2.2.2 .primary (by decide)
  cases c with
  | primary => exact ⟨after.1.trans step1.1, after.2.1.trans step1.2.1, after.2.2.1.trans step1.2.2.1,
      after.2.2.2.trans step1.2.2.2⟩
  | secondary => exact step2

/-- What EDGE leaves alone, and the counter it advances. -/
theorem edge_other (cap : Nat) (r : Rx) :
    (edge cap r).din = r.din ∧ (edge cap r).strobeIn = r.strobeIn ∧ (edge cap r).sel = r.sel ∧
    (edge cap r).port = r.port ∧ (edge cap r).edgeCnt = r.edgeCnt + 1 := by
  have h1 := edgeChannel_other (cap := cap) (c := .primary) (r := r.countEdge)
  have h2 := edgeChannel_other (cap := cap) (c := .secondary) (r := edgeChannel cap .primary r.countEdge)
  exact ⟨h2.1.trans h1.1, h2.2.1.trans h1.2.1, h2.2.2.1.trans h1.2.2.1, h2.2.2.2.1.trans h1.2.2.2.1,
    h2.2.2.2.2.1.trans h1.2.2.2.2.1⟩

/-- SET_STROBE with no rise only records the level. -/
theorem setStrobe_of_no_rise {cap : Nat} {v : Level} {r : Rx} (h : ¬(r.strobeIn = false ∧ v = true)) :
    setStrobe cap v r = { r with strobeIn := v } := by
  simp only [setStrobe, if_neg h]

/-- SET_STROBE with a rise runs EDGE. -/
theorem setStrobe_of_rise {cap : Nat} {v : Level} {r : Rx} (h : r.strobeIn = false ∧ v = true) :
    setStrobe cap v r = { edge cap r with strobeIn := v } := by
  simp only [setStrobe, if_pos h]

/-! ### The loopback wiring -/

/-- One data line of Propagate ends at the driven level, whether or not it had to change. -/
theorem propagateDin_eq (c : Channel) (v : Level) (r : Rx) : propagateDin c v r = r.setDin c v := by
  unfold propagateDin
  split
  · rfl
  · rename_i h
    have hv : r.din.get c = v := not_not.mp h
    subst hv
    cases c <;> rfl

/-- Propagate is SET_DIN on both data lines and then SET_STROBE. -/
theorem propagate_eq (cap : Nat) (dout : Both Level) (strobe : Level) (r : Rx) :
    propagate cap dout strobe r = setStrobe cap strobe { r with din := dout } := by
  have hd : (r.setDin .primary (dout.get .primary)).setDin .secondary (dout.get .secondary) = { r with din := dout } := rfl
  unfold propagate
  dsimp only
  rw [propagateDin_eq, propagateDin_eq, hd]
  split
  · rfl
  · rename_i h
    have hs : r.strobeIn = strobe := not_not.mp h
    subst hs
    rw [setStrobe_of_no_rise (by intro h; exact absurd (h.1.symm.trans h.2) (by decide))]

/-! ### The sequencer -/

/-- EnterSetup answers only where both buffers hold the sample, and then shows its bit. -/
theorem enterSetup_some {cfg : Config} {k : Nat} {i : BitVec 3} {t u : Tx} (h : enterSetup cfg k i t = some u) :
    ∃ b0 b1, txRead .primary k t = some b0 ∧ txRead .secondary k t = some b1 ∧
      u = { t with i := i, dout := ⟨b0.getLsbD i.toNat, b1.getLsbD i.toNat⟩, strobeOut := false, ph := .setup
                   tmr := cfg.tSetup } := by
  unfold enterSetup at h
  split at h
  · exact ⟨_, _, ‹_›, ‹_›, (Option.some.inj h).symm⟩
  · cases h

/-- What the next phase keeps of the transmitter: its buffers, its period and whether it runs and drives. -/
theorem nextPhase_keeps {cfg : Config} {t u : Tx} (h : nextPhase cfg t = some u) :
    u.run = t.run ∧ u.buf = t.buf ∧ u.period = t.period ∧ u.oe = t.oe := by
  unfold nextPhase at h
  split at h
  · cases h; exact ⟨rfl, rfl, rfl, rfl⟩
  · cases h; exact ⟨rfl, rfl, rfl, rfl⟩
  · split at h
    · obtain ⟨_, _, _, _, rfl⟩ := enterSetup_some h; exact ⟨rfl, rfl, rfl, rfl⟩
    · cases h; exact ⟨rfl, rfl, rfl, rfl⟩
  · obtain ⟨_, _, _, _, rfl⟩ := enterSetup_some h; exact ⟨rfl, rfl, rfl, rfl⟩

/-- The end of TX_START and of a TICK that entered a phase: only the receiver can change. -/
theorem propagateIfLooped_eq (s : State) :
    propagateIfLooped s = { s with
      rx := if s.cfg.loopback then propagate s.cfg.cap s.tx.dout s.tx.strobeOut s.rx else s.rx } := by
  unfold propagateIfLooped
  split <;> rfl

/-- What TICK can do (40_transmitter.md R91): nothing, count down, or enter the next phase. -/
theorem execTick_next {s t : State} (h : execTick s = .next t) :
    ((s.cfg.hasTx = false ∨ s.tx.run = false) ∧ t = s) ∨
    (s.cfg.hasTx = true ∧ s.tx.run = true ∧ 2 ≤ s.tx.tmr ∧ t = { s with tx := { s.tx with tmr := s.tx.tmr - 1 } }) ∨
    (s.cfg.hasTx = true ∧ s.tx.run = true ∧ s.tx.tmr = 1 ∧ ∃ u,
      nextPhase s.cfg { s.tx with tmr := 0 } = some u ∧ t = propagateIfLooped { s with tx := u }) := by
  unfold execTick at h
  split at h
  · exact .inl ⟨‹_›, by cases h; rfl⟩
  · rename_i hrun
    have hb : s.cfg.hasTx = true ∧ s.tx.run = true := by simpa using hrun
    split at h
    · cases h
    · split at h
      · exact .inr (.inl ⟨hb.1, hb.2, by omega, by cases h; rfl⟩)
      · have ht : s.tx.tmr = 1 := by omega
        split at h
        · rename_i u hu
          refine .inr (.inr ⟨hb.1, hb.2, ht, u, ?_, by cases h; rfl⟩)
          simpa [ht] using hu
        · cases h

/-- What TX_START can do (40_transmitter.md R87): fail, or enter SETUP of bit 0 of sample 0 and propagate. -/
theorem execTxStart_next {s t : State} (h : execTxStart s = .next t) :
    (∃ st, st ≠ .ok ∧ st ≠ .restart ∧ t = s.failed st) ∨
    (s.cfg.hasTx = true ∧ s.tx.run = false ∧ (s.tx.buf.get .secondary).length = (s.tx.buf.get .primary).length ∧
      (s.tx.buf.get .primary).length ≠ 0 ∧ s.tx.period ≠ 0 ∧ ∃ u,
      enterSetup s.cfg 0 0 { s.tx with run := true, oe := true, k := 0 } = some u ∧
      t = propagateIfLooped ({ s with tx := u }.respond .ok 0 [])) := by
  unfold execTxStart at h
  repeat' split at h
  all_goals first
    | (cases h; exact .inl ⟨_, by decide, by decide, rfl⟩)
    | skip
  · rename_i h1 h2 h3 h4 h5 _ u hu
    exact .inr ⟨by simpa using h1, by simpa using h2, not_not.mp h3, h4, h5, u, hu, by cases h; rfl⟩
  · cases h

/-! ### Choosing the next step -/

/-- Behind waiting commands, the first input that does not come from HOST is the first that goes on. -/
theorem firstOfEnv_append (ws : List Word) (xs : List Input) :
    firstOfEnv (ws.map .command ++ xs) = (firstOfEnv xs).map fun p => (p.1, ws.map .command ++ p.2) := by
  induction ws with
  | nil => simp
  | cons w ws ih =>
    simp only [List.map_cons, List.cons_append, firstOfEnv, ih]
    cases firstOfEnv xs <;> rfl

/-- Commands alone leave the other agents nothing to go on with. -/
theorem firstOfEnv_commands (ws : List Word) : firstOfEnv (ws.map .command) = none := by
  simpa [firstOfEnv] using firstOfEnv_append ws []

/-- What the fetch does with a command that finds the port held: COMPLETE, if it is enabled, or the first input behind the
waiting commands, or nothing. -/
theorem fetch_held {s : State} {w : Word} {rest : List Input} (hs : s.inputs = .command w :: rest)
    (hp : s.rx.port ≠ .idle) :
    fetch s = if completeEnabled s then .settled (complete s) else
      match firstOfEnv rest with
      | none => .settled s
      | some (x, others) => present x { s with inputs := .command w :: others } := by
  unfold fetch
  rw [hs]
  exact if_neg hp

/-- COMPLETE written out (42_read_interface.md R113). -/
theorem complete_of_pending {s : State} {ch : Channel} {n : Arg} (hp : s.rx.port = .pending ch n) :
    complete s = deliver ch n { s with rx := { s.rx with port := .idle } } := by
  rw [complete, hp]

/-- What the fetch can find, as it bears on the state: an instruction at a state that differs only in its inputs (an event,
unless the port is idle), an answer ILLEGAL, RDC's turn, or a refusal. -/
theorem fetch_cases (s : State) :
    (∃ i xs, (s.rx.port = .idle ∨ ∃ v, encode i = .event v) ∧ fetch s = .run i { s with inputs := xs }) ∨
    (s.rx.port = .idle ∧ ∃ xs, fetch s = .settled ({ s with inputs := xs }.failed .illegal)) ∨
    (∃ xs, fetch s = .settled (rdcTurn { s with inputs := xs })) ∨
    fetch s = .refused .reservedEvent := by
  have event : ∀ w xs, (∃ i ys, (s.rx.port = .idle ∨ ∃ v, encode i = .event v) ∧
      present (.event w) { s with inputs := xs } = .run i { s with inputs := ys }) ∨
      present (.event w) { s with inputs := xs } = .refused .reservedEvent := by
    intro w xs
    unfold present
    dsimp only
    split
    · rename_i hi
      exact .inl ⟨_, _, .inr (decodeEvent_isEvent hi), rfl⟩
    · exact .inr rfl
  have env : ∀ xs x others, firstOfEnv xs = some (x, others) → (∃ w, x = .event w) ∨ x = .rdc := by
    intro xs
    induction xs with
    | nil => intro x others h; cases h
    | cons y ys ih =>
      intro x others h
      cases y with
      | command w =>
        unfold firstOfEnv at h
        split at h
        · cases h
        · rename_i z zs hz
          cases h
          exact ih _ _ hz
      | event w => cases h; exact .inl ⟨_, rfl⟩
      | rdc => cases h; exact .inr rfl
  unfold fetch
  split
  · rename_i hs
    exact .inr (.inr (.inl ⟨[], by rw [← hs]⟩))
  · rename_i w rest hs
    split
    · rename_i hp
      unfold present
      dsimp only
      split
      · exact .inl ⟨_, _, .inl hp, rfl⟩
      · exact .inr (.inl ⟨hp, _, rfl⟩)
    · split
      · rename_i he
        refine .inr (.inr (.inl ⟨s.inputs, ?_⟩))
        show Fetched.settled (complete s) = .settled (rdcTurn s)
        rw [rdcTurn, if_pos he]
      · rename_i he
        split
        · refine .inr (.inr (.inl ⟨s.inputs, ?_⟩))
          show Fetched.settled s = .settled (rdcTurn s)
          rw [rdcTurn, if_neg he]
        · rename_i x others hx
          rcases env _ _ _ hx with ⟨v, rfl⟩ | rfl
          · rcases event v (.command w :: others) with h | h
            · exact .inl h
            · exact .inr (.inr (.inr h))
          · exact .inr (.inr (.inl ⟨_, rfl⟩))
  · rename_i w rest hs
    rcases event w rest with h | h
    · exact .inl h
    · exact .inr (.inr (.inr h))
  · exact .inr (.inr (.inl ⟨_, rfl⟩))

/-- RDC's turn: COMPLETE, where it is enabled, or nothing. -/
theorem rdcTurn_cases (s : State) :
    (∃ ch n, s.rx.port = .pending ch n ∧ s.rx.q.get ch ≠ [] ∧
      rdcTurn s = deliver ch n { s with rx := { s.rx with port := .idle } }) ∨
    (completeEnabled s = false ∧ rdcTurn s = s) := by
  unfold rdcTurn
  split
  · rename_i h
    unfold completeEnabled at h
    unfold complete
    split at h
    · cases h
    · rename_i ch n hp
      rw [hp]
      exact .inl ⟨ch, n, rfl, by simpa [List.length_pos_iff] using h, rfl⟩
  · rename_i h
    exact .inr ⟨by simpa using h, rfl⟩

/-- What a step can do: run an instruction at the state less its word (a command only where the port is idle), answer a
rejected word ILLEGAL, or give RDC its turn. -/
theorem step_next {s t : State} (h : step s = .next t) :
    (∃ i xs, (s.rx.port = .idle ∨ ∃ v, encode i = .event v) ∧ exec i { s with inputs := xs } = .next t) ∨
    (s.rx.port = .idle ∧ ∃ xs, t = { s with inputs := xs }.failed .illegal) ∨
    (∃ xs, t = rdcTurn { s with inputs := xs }) := by
  unfold step at h
  rcases fetch_cases s with ⟨i, xs, hi, hf⟩ | ⟨hp, xs, hf⟩ | ⟨xs, hf⟩ | hf <;> rw [hf] at h
  · exact .inl ⟨i, xs, hi, h⟩
  · exact .inr (.inl ⟨hp, xs, by cases h; rfl⟩)
  · exact .inr (.inr ⟨xs, by cases h; rfl⟩)
  · cases h

end Sys2Proof.Machine
end

