-- ==== Sys2Proof/Laws/Exec.lean ====
section
/-! SUPPORT. Everything an instruction can do when exec answers a next state, said once: one case per kind of effect, with
the guards under which the meaning takes it. Invariants and frames are case analyses of `exec_effect`. -/

namespace Sys2Proof.Machine

open Sys2Proof

/-- The ways an instruction i takes a state s to a state t. -/
inductive Effect (i : Instr) (s : State) : State → Prop where
  /-- Nothing changes: a CANCEL with no READ pending, a TICK while idle. -/
  | nothing : Effect i s s
  /-- A response and no other change: a failure, or a command that only observes. -/
  | responds (st : Status) (v : Word) (isCommand : ∃ w, encode i = .command w) (failed : st ≠ .ok → v = 0)
      (notRestart : st ≠ .restart) : Effect i s (s.respond st v [])
  /-- A read of a non-empty selected queue. -/
  | delivers (n : Arg) (isRead : i = .read n ∨ i = .readNb n) (positive : n ≠ 0) (data : s.rx.q.get s.rx.sel ≠ []) :
      Effect i s (deliver s.rx.sel n s)
  /-- A blocking READ of an empty selected queue. -/
  | pends (n : Arg) (isRead : i = .read n) (positive : n ≠ 0) (empty : s.rx.q.get s.rx.sel = []) :
      Effect i s { s with rx := { s.rx with port := .pending s.rx.sel n } }
  | selects (v : Arg) (c : Channel) (isSelect : i = .select v) :
      Effect i s ({ s with rx := { s.rx with sel := c } }.respond .ok 0 [])
  | loads (c : Channel) (b : Byte) (isLoad : i = .txLoadP b ∨ i = .txLoadS b) (hasTx : s.cfg.hasTx = true)
      (idle : s.tx.run = false) (room : (s.tx.buf.get c).length ≠ s.cfg.txDepth) :
      Effect i s ({ s with tx := txAppend c b s.tx }.respond .ok 0 [])
  | setsPeriod (p : Arg) (isPeriod : i = .txPeriod p) (hasTx : s.cfg.hasTx = true) (idle : s.tx.run = false)
      (positive : p ≠ 0) : Effect i s ({ s with tx := { s.tx with period := p } }.respond .ok 0 [])
  | starts (u : Tx) (isStart : i = .txStart) (hasTx : s.cfg.hasTx = true) (idle : s.tx.run = false)
      (same : (s.tx.buf.get .secondary).length = (s.tx.buf.get .primary).length)
      (nonempty : (s.tx.buf.get .primary).length ≠ 0) (period : s.tx.period ≠ 0)
      (setup : enterSetup s.cfg 0 0 { s.tx with run := true, oe := true, k := 0 } = some u) :
      Effect i s (propagateIfLooped ({ s with tx := u }.respond .ok 0 []))
  | stops (isStop : i = .txStop) (hasTx : s.cfg.hasTx = true) :
      Effect i s ({ s with tx := txStopped s.tx }.respond .ok 0 [])
  | setsDin (c : Channel) (v : Level) (isSetDin : i = .setDin c v) (notLooped : s.cfg.loopback = false) :
      Effect i s { s with rx := s.rx.setDin c v }
  | setsStrobe (v : Level) (isSetStrobe : i = .setStrobe v) (notLooped : s.cfg.loopback = false) :
      Effect i s { s with rx := setStrobe s.cfg.cap v s.rx }
  | cancels (isCancel : i = .cancel) (pending : s.rx.port ≠ .idle) :
      Effect i s ({ s with rx := { s.rx with port := .idle } }.failed .restart)
  | resets (isReset : i = .reset) :
      Effect i s { s with rx := rxReset s.rx, tx := if s.cfg.hasTx then txReset s.tx else s.tx }
  /-- A TICK inside a phase. -/
  | counts (isTick : i = .tick) (hasTx : s.cfg.hasTx = true) (running : s.tx.run = true) (more : 2 ≤ s.tx.tmr) :
      Effect i s { s with tx := { s.tx with tmr := s.tx.tmr - 1 } }
  /-- A TICK that ends a phase. -/
  | enters (u : Tx) (isTick : i = .tick) (hasTx : s.cfg.hasTx = true) (running : s.tx.run = true) (last : s.tx.tmr = 1)
      (next : nextPhase s.cfg { s.tx with tmr := 0 } = some u) : Effect i s (propagateIfLooped { s with tx := u })

theorem fail_effect {i : Instr} {st : Status} {s t : State} (hi : ∃ w, encode i = .command w) (h : st ≠ .restart)
    (ht : fail st s = .next t) : Effect i s t := by
  cases ht
  exact .responds st 0 hi (fun _ => rfl) h

theorem answer_effect {i : Instr} {v : Word} {s t : State} (hi : ∃ w, encode i = .command w)
    (ht : answer v s = .next t) : Effect i s t := by
  cases ht
  exact .responds .ok v hi (fun h => absurd rfl h) (by decide)

/-- What READ and READ.NB can do (42_read_interface.md R112). -/
theorem readCommand_effect {nb : Bool} {n : Arg} {i : Instr} {s t : State} (hr : i = .read n ∨ i = .readNb n)
    (hb : nb = false → i = .read n) (h : readCommand nb n s = .next t) : Effect i s t := by
  have hc : ∃ w, encode i = .command w := by rcases hr with rfl | rfl <;> exact ⟨_, rfl⟩
  unfold readCommand at h
  split at h
  · exact fail_effect hc (by decide) h
  · rename_i hn
    split at h
    · rename_i hq
      cases h
      exact .delivers n hr hn (List.length_pos_iff.mp hq)
    · rename_i hq
      split at h
      · exact fail_effect hc (by decide) h
      · rename_i hnb
        cases h
        exact .pends n (hb (by simpa using hnb)) hn (by simpa using hq)

/-- What TX_LOAD_P and TX_LOAD_S can do (40_transmitter.md R84, R85). -/
theorem txLoad_effect {c : Channel} {b : Byte} {i : Instr} {s t : State} (hi : i = .txLoadP b ∨ i = .txLoadS b)
    (h : txLoad c b s = .next t) : Effect i s t := by
  have hc : ∃ w, encode i = .command w := by rcases hi with rfl | rfl <;> exact ⟨_, rfl⟩
  unfold txLoad at h
  split at h
  · exact fail_effect hc (by decide) h
  · rename_i h1
    split at h
    · exact fail_effect hc (by decide) h
    · rename_i h2
      split at h
      · exact fail_effect hc (by decide) h
      · rename_i h3
        cases h
        exact .loads c b hi (by simpa using h1) (by simpa using h2) h3

/-- An instruction that answers a next state has one of the effects. -/
theorem exec_effect {i : Instr} {s t : State} (h : exec i s = .next t) : Effect i s t := by
  cases i with
  | read n => exact readCommand_effect (.inl rfl) (fun _ => rfl) h
  | readNb n => exact readCommand_effect (.inr rfl) (fun hf => by cases hf) h
  | select v =>
    simp only [exec, execSelect] at h
    split at h
    · exact fail_effect ⟨_, rfl⟩ (by decide) h
    · cases h
      exact .selects v _ rfl
  | query => exact answer_effect ⟨_, rfl⟩ h
  | getCount c =>
    simp only [exec, execGetCount] at h
    split at h
    · exact fail_effect ⟨_, rfl⟩ (by decide) h
    · exact answer_effect ⟨_, rfl⟩ h
  | getEdges => exact answer_effect ⟨_, rfl⟩ h
  | getDrops c =>
    simp only [exec, execGetDrops] at h
    split at h
    · exact fail_effect ⟨_, rfl⟩ (by decide) h
    · exact answer_effect ⟨_, rfl⟩ h
  | txLoadP b => exact txLoad_effect (.inl rfl) h
  | txLoadS b => exact txLoad_effect (.inr rfl) h
  | txPeriod p =>
    simp only [exec, execTxPeriod] at h
    split at h
    · exact fail_effect ⟨_, rfl⟩ (by decide) h
    · rename_i h1
      split at h
      · exact fail_effect ⟨_, rfl⟩ (by decide) h
      · rename_i h2
        split at h
        · exact fail_effect ⟨_, rfl⟩ (by decide) h
        · rename_i h3
          cases h
          exact .setsPeriod p rfl (by simpa using h1) (by simpa using h2) h3
  | txStart =>
    rcases execTxStart_next h with ⟨st, _, hr, rfl⟩ | ⟨h1, h2, h3, h4, h5, u, hu, rfl⟩
    · exact .responds st 0 ⟨_, rfl⟩ (fun _ => rfl) hr
    · exact .starts u rfl h1 h2 h3 h4 h5 hu
  | txStop =>
    simp only [exec, execTxStop] at h
    split at h
    · exact fail_effect ⟨_, rfl⟩ (by decide) h
    · rename_i h1
      cases h
      exact .stops rfl (by simpa using h1)
  | txQuery n =>
    simp only [exec, execTxQuery] at h
    repeat' split at h
    all_goals first | exact fail_effect ⟨_, rfl⟩ (by decide) h | exact answer_effect ⟨_, rfl⟩ h
  | setDin c v =>
    simp only [exec, execSetDin] at h
    split at h
    · cases h
    · rename_i h1
      cases h
      exact .setsDin c v rfl (by simpa using h1)
  | setStrobe v =>
    simp only [exec, execSetStrobe] at h
    split at h
    · cases h
    · rename_i h1
      cases h
      exact .setsStrobe v rfl (by simpa using h1)
  | cancel =>
    simp only [exec, execCancel] at h
    split at h
    · cases h
      exact .nothing
    · rename_i hp
      cases h
      exact .cancels rfl (by rw [hp]; simp)
  | reset =>
    cases h
    exact .resets rfl
  | tick =>
    rcases execTick_next h with ⟨_, rfl⟩ | ⟨h1, h2, h3, rfl⟩ | ⟨h1, h2, h3, u, hu, rfl⟩
    · exact .nothing
    · exact .counts rfl h1 h2 h3
    · exact .enters u rfl h1 h2 h3 hu

/-! ### The receiver alone -/

/-- What a step can leave of the receiver: most invariants of the receiver need only this. -/
inductive RxEffect (s : State) : Rx → Prop where
  | same : RxEffect s s.rx
  | port (p : Port) (positive : ∀ ch n, p = .pending ch n → n ≠ 0) : RxEffect s { s.rx with port := p }
  | sel (c : Channel) : RxEffect s { s.rx with sel := c }
  /-- A dequeue, by READ (the port stays idle or as it was) or by COMPLETE (the port becomes idle). -/
  | delivers (ch : Channel) (n : Arg) (p : Port) (released : p = .idle ∨ p = s.rx.port) :
      RxEffect s { qPop ch (readLength ch n s.rx) s.rx with port := p }
  | din (d : Both Level) : RxEffect s { s.rx with din := d }
  /-- SET_STROBE, from ENV or through the loopback, after the data levels. -/
  | strobe (d : Both Level) (v : Level) : RxEffect s (setStrobe s.cfg.cap v { s.rx with din := d })
  | resets : RxEffect s (rxReset s.rx)

theorem propagateIfLooped_rx (s u : State) (hc : u.cfg = s.cfg) (hr : u.rx = s.rx) :
    RxEffect s (propagateIfLooped u).rx := by
  rw [propagateIfLooped_eq]
  dsimp only
  split
  · rw [propagate_eq, hc, hr]
    exact .strobe _ _
  · rw [hr]
    exact .same

theorem exec_rx {i : Instr} {s t : State} (h : exec i s = .next t) : RxEffect s t.rx := by
  cases exec_effect h with
  | nothing => exact .same
  | responds => exact .same
  | delivers n => exact .delivers _ n s.rx.port (.inr rfl)
  | pends n h1 h2 => exact .port _ (by rintro ch m h; cases h; exact h2)
  | selects v c => exact .sel c
  | loads => exact .same
  | setsPeriod => exact .same
  | starts u => exact propagateIfLooped_rx s _ rfl rfl
  | stops => exact .same
  | setsDin c v => exact .din _
  | setsStrobe v => exact .strobe s.rx.din v
  | cancels => exact .port _ (by rintro ch m h; cases h)
  | resets => exact .resets
  | counts => exact .same
  | enters u => exact propagateIfLooped_rx s _ rfl rfl

/-- The receiver after any step. -/
theorem step_rx {s t : State} (h : step s = .next t) : RxEffect s t.rx := by
  rcases step_next h with ⟨i, xs, _, h⟩ | ⟨_, xs, rfl⟩ | ⟨xs, rfl⟩
  · have hx := exec_rx h
    generalize t.rx = r at hx
    cases hx with
    | same => exact .same
    | port p hp => exact .port p hp
    | sel c => exact .sel c
    | delivers ch n p hp => exact .delivers ch n p hp
    | din d => exact .din d
    | strobe d v => exact .strobe d v
    | resets => exact .resets
  · exact .same
  · rcases rdcTurn_cases { s with inputs := xs } with ⟨ch, n, _, _, h⟩ | ⟨_, h⟩
    · rw [h]
      exact .delivers ch n .idle (.inl rfl)
    · rw [h]
      exact .same

end Sys2Proof.Machine
end

