-- ==== Sys2Proof/Laws/PerInstr.lean ====
section
/-! SUPPORT. A family of facts with one lemma per constructor of Instr: the encoding of an instruction lies in its row of
spec/opcode_table.json, that is, it goes to the row's port and its fixed bits are the row's. -/

namespace Sys2Proof.Laws.EncodesRow

open Sys2Proof

/-- The row of an instruction in spec/opcode_table.json: which bits it fixes, and their values. -/
def row : Instr → Input × Input
  | .read _ => (.command 0xFFFF0000, .command 0x10000000)
  | .readNb _ => (.command 0xFFFF0000, .command 0x18000000)
  | .select _ => (.command 0xFFFF0000, .command 0x20000000)
  | .query => (.command 0xFFFFFFFF, .command 0x30000000)
  | .getCount _ => (.command 0xFFFF0000, .command 0x40000000)
  | .getEdges => (.command 0xFFFFFFFF, .command 0x50000000)
  | .getDrops _ => (.command 0xFFFF0000, .command 0x60000000)
  | .txLoadP _ => (.command 0xFFFFFF00, .command 0x80000000)
  | .txLoadS _ => (.command 0xFFFFFF00, .command 0x90000000)
  | .txPeriod _ => (.command 0xFFFF0000, .command 0xA0000000)
  | .txStart => (.command 0xFFFFFFFF, .command 0xB0000000)
  | .txStop => (.command 0xFFFFFFFF, .command 0xC0000000)
  | .txQuery _ => (.command 0xFFFF0000, .command 0xE0000000)
  | .setDin _ _ => (.event 0xFC, .event 0x10)
  | .setStrobe _ => (.event 0xFE, .event 0x20)
  | .cancel => (.event 0xFF, .event 0x30)
  | .reset => (.event 0xFF, .event 0x40)
  | .tick => (.event 0xFF, .event 0x50)

/-- Does the word x have the values that a row gives the bits it fixes? Two words at different ports never match. -/
def Matches (r : Input × Input) (x : Input) : Prop :=
  match r, x with
  | (.command mask, .command value), .command w => w &&& mask = value
  | (.event mask, .event value), .event w => w &&& mask = value
  | _, _ => False

/-- The word of i lies in the row of i, for every operand. -/
def Statement (i : Instr) : Prop := Matches (row i) (encode i)

/-- ORing in an operand that a mask does not cover leaves the bits under the mask as they are. -/
theorem or_masked {n : Nat} (h : Word) (mask : Word) (a : BitVec n) (hh : h &&& mask = h)
    (ha : ∀ j, j < n → mask.getLsbD j = false) : (h ||| a.setWidth 32) &&& mask = h := by
  apply BitVec.eq_of_getLsbD_eq
  intro j hj
  have hb := congrArg (fun w => w.getLsbD j) hh
  simp only [BitVec.getLsbD_and] at hb
  simp only [BitVec.getLsbD_and, BitVec.getLsbD_or, BitVec.getLsbD_setWidth]
  rcases Nat.lt_or_ge j n with hn | hn
  · rw [ha j hn] at hb ⊢
    simp only [Bool.and_false] at hb ⊢
    exact hb
  · rw [BitVec.getLsbD_of_ge a j hn]
    simpa using hb

/-- A command word under the mask of the rows that leave ARG free. -/
theorem commandWord_masked (op : BitVec 4) (m : Bool) (arg : Arg) :
    commandWord op m arg &&& 0xFFFF0000#32 = op.setWidth 32 <<< 28 ||| (BitVec.ofBool m).setWidth 32 <<< 27 :=
  or_masked _ _ _ (by revert op m; decide) (by decide)

/-- A command word with a byte operand, under the mask of the rows that leave ARG[7:0] free. -/
theorem commandWord_byte_masked (op : BitVec 4) (m : Bool) (b : Byte) :
    commandWord op m (byteArg b) &&& 0xFFFFFF00#32 = op.setWidth 32 <<< 28 ||| (BitVec.ofBool m).setWidth 32 <<< 27 := by
  have hb : (byteArg b).setWidth 32 = b.setWidth 32 := BitVec.eq_of_toNat_eq (by
    have := b.isLt
    simp only [byteArg, BitVec.toNat_setWidth]
    omega)
  rw [commandWord, hb]
  exact or_masked _ _ _ (by revert op m; decide) (by decide)

theorem read (n : Arg) : Statement (.read n) := commandWord_masked 0x1#4 false n
theorem readNb (n : Arg) : Statement (.readNb n) := commandWord_masked 0x1#4 true n
theorem select (v : Arg) : Statement (.select v) := commandWord_masked 0x2#4 false v
theorem query : Statement .query := rfl
theorem getCount (c : Arg) : Statement (.getCount c) := commandWord_masked 0x4#4 false c
theorem getEdges : Statement .getEdges := rfl
theorem getDrops (c : Arg) : Statement (.getDrops c) := commandWord_masked 0x6#4 false c
theorem txLoadP (b : Byte) : Statement (.txLoadP b) := commandWord_byte_masked 0x8#4 false b
theorem txLoadS (b : Byte) : Statement (.txLoadS b) := commandWord_byte_masked 0x9#4 false b
theorem txPeriod (p : Arg) : Statement (.txPeriod p) := commandWord_masked 0xA#4 false p
theorem txStart : Statement .txStart := rfl
theorem txStop : Statement .txStop := rfl
theorem txQuery (sel : Arg) : Statement (.txQuery sel) := commandWord_masked 0xE#4 false sel
theorem setDin (ch : Channel) (v : Level) : Statement (.setDin ch v) := by cases ch <;> cases v <;> rfl
theorem setStrobe (v : Level) : Statement (.setStrobe v) := by cases v <;> rfl
theorem cancel : Statement .cancel := rfl
theorem reset : Statement .reset := rfl
theorem tick : Statement .tick := rfl

end Sys2Proof.Laws.EncodesRow
end

