-- ==== Sys2Proof/Tests/Slice0.lean ====
section
/-! SUPPORT. The model's own tests: words of the spec decoded, the two static checks, the vectors of 95_test_vectors.md one
step at a time (the name of a test ends in its vector's), and for each statement of Obligations.lean with hypotheses a
concrete case that meets them (`witness_…`). -/

namespace Sys2Proof.Tests

open Sys2Proof Sys2Proof.Machine

/-- The next state of an outcome. -/
def nextOf : Result → Option State
  | .next s => some s
  | .fault _ => none
  | .refused _ => none

/-- The state of the spec's vectors (the parameters of 95_test_vectors.md) with this receiver and this transmitter. -/
def block (r : Rx) (t : Tx) : State := { State.reset with rx := r, tx := t }

/-- The power-on receiver with these queues and this selector. -/
def queues (q0 q1 : List Byte) (sel : Channel) : Rx := { Rx.powerOn with q := ⟨q0, q1⟩, sel := sel }

/-- An idle transmitter with these buffers and this period. -/
def loaded (b0 b1 : List Byte) (p : Arg) : Tx := { Tx.powerOn with buf := ⟨b0, b1⟩, period := p }

/-- A running transmitter at bit i of sample 0 of two one-byte buffers (0xB2 and 0x5A), PERIOD = 1, in a phase with a number
of ticks left; its outputs as 40_transmitter.md R90 leaves them. -/
def running (i : BitVec 3) (ph : Phase) (tmr : Nat) : Tx :=
  { loaded [0xB2] [0x5A] 1 with
    run := true, oe := true, i := i, ph := ph, tmr := tmr
    dout := ⟨(0xB2#8).getLsbD i.toNat, (0x5A#8).getLsbD i.toNat⟩, strobeOut := decide (ph = .pulse) }

/-- The one response of a step from a state without any. -/
def response (st : Status) (v : Word) (d : List Byte) : List Response := [⟨st, v, d⟩]

/-! ### Decoding: the bits written out from 30_encoding.md R58, R61 and R65 (OP M Z ARG; EVT Z CH V) -/

theorem test_decode_read : decodeCommand true 0b0001_0_00000000000_0000000000000010#32 = .ok (.read 2) := rfl
theorem test_decode_readNb : decodeCommand true 0b0001_1_00000000000_0000000000000100#32 = .ok (.readNb 4) := rfl
theorem test_decode_select : decodeCommand true 0b0010_0_00000000000_0000000000000001#32 = .ok (.select 1) := rfl
theorem test_decode_query : decodeCommand true 0b0011_0_00000000000_0000000000000000#32 = .ok .query := rfl
theorem test_decode_getCount : decodeCommand true 0b0100_0_00000000000_0000000000000001#32 = .ok (.getCount 1) := rfl
theorem test_decode_getEdges : decodeCommand true 0b0101_0_00000000000_0000000000000000#32 = .ok .getEdges := rfl
theorem test_decode_getDrops : decodeCommand true 0b0110_0_00000000000_0000000000000010#32 = .ok (.getDrops 2) := rfl
theorem test_decode_txLoadP : decodeCommand true 0b1000_0_00000000000_0000000010110010#32 = .ok (.txLoadP 0xB2) := rfl
theorem test_decode_txLoadS : decodeCommand true 0b1001_0_00000000000_0000000001011010#32 = .ok (.txLoadS 0x5A) := rfl
theorem test_decode_txPeriod : decodeCommand true 0b1010_0_00000000000_1111111111111111#32 = .ok (.txPeriod 65535) := rfl
theorem test_decode_txStart : decodeCommand true 0b1011_0_00000000000_0000000000000000#32 = .ok .txStart := rfl
theorem test_decode_txStop : decodeCommand true 0b1100_0_00000000000_0000000000000000#32 = .ok .txStop := rfl
theorem test_decode_txQuery : decodeCommand true 0b1110_0_00000000000_0000000000000011#32 = .ok (.txQuery 3) := rfl
theorem test_decode_setDin : decodeEvent 0b0001_00_1_0#8 = .ok (.setDin .secondary false) := rfl
theorem test_decode_setDin_one : decodeEvent 0b0001_00_0_1#8 = .ok (.setDin .primary true) := rfl
theorem test_decode_setStrobe : decodeEvent 0b0010_00_0_1#8 = .ok (.setStrobe true) := rfl
theorem test_decode_cancel : decodeEvent 0b0011_00_0_0#8 = .ok .cancel := rfl
theorem test_decode_reset : decodeEvent 0b0100_00_0_0#8 = .ok .reset := rfl
theorem test_decode_tick : decodeEvent 0b0101_00_0_0#8 = .ok .tick := rfl

theorem test_tableWord_command : decodeTableWord 32 0xE0000003 = some (.txQuery 3) := rfl
theorem test_tableWord_event : decodeTableWord 8 0x13 = some (.setDin .secondary true) := rfl

/-- D-1 to D-9: each rejection by its name. -/
theorem test_decode_rejects_D :
    decodeCommand true 0x00000000#32 = .error .reservedOpcode ∧ decodeCommand true 0xF0000000#32 = .error .reservedOpcode ∧
    decodeCommand true 0x30010000#32 = .error .reservedZ ∧ decodeCommand true 0x28000001#32 = .error .modeBit ∧
    decodeCommand true 0xC0000001#32 = .error .unusedArg ∧ decodeCommand true 0x80000100#32 = .error .argHigh ∧
    decodeCommand false 0x800000B2#32 = .error .noTransmitter ∧ decodeCommand true 0x08000000#32 = .error .reservedOpcode ∧
    decodeCommand false 0x1800FFFF#32 = .ok (.readNb 65535) :=
  ⟨rfl, rfl, rfl, rfl, rfl, rfl, rfl, rfl, rfl⟩

/-- E-14: reserved event words. -/
theorem test_decode_reserved_events_E14 :
    ∀ w ∈ [0x14#8, 0x22#8, 0x31#8, 0x41#8, 0x51#8, 0x60#8, 0xFF#8],
      nextOf (step (State.reset.withFetchWord 8 w.toNat)) = none := by decide

/-! ### The static checks, each with ill-formed terms that it refuses -/

theorem test_wellFormed_txLoadP : (Instr.txLoadP 0).wellFormed false = false := rfl
theorem test_wellFormed_txLoadS : (Instr.txLoadS 0).wellFormed false = false := rfl
theorem test_wellFormed_txPeriod : (Instr.txPeriod 1).wellFormed false = false := rfl
theorem test_wellFormed_txStart : Instr.txStart.wellFormed false = false := rfl
theorem test_wellFormed_txStop : Instr.txStop.wellFormed false = false := rfl
theorem test_wellFormed_txQuery : (Instr.txQuery 0).wellFormed false = false := rfl
theorem test_wellFormed_tick : Instr.tick.wellFormed false = true := rfl

theorem test_line_operands : ∀ l ∈ [Line.read 65536, .readNb 65536, .select 65536, .getCount 65536, .getDrops 65536,
    .txLoadP 256, .txLoadS 256, .txPeriod 65536, .txQuery 65536, .setDin 2 0, .setDin 0 2, .setStrobe 2, .edge 2 0,
    .edge 0 2, .sendByte 256 0, .sendByte 0 256, .sendByteMsb 256 0, .sendByteMsb 0 256],
    l.wellFormed = false ∧ assembleLine l = none := by decide
theorem test_line_boundaries : ∀ l ∈ [Line.read 65535, .select 65535, .txLoadP 255, .setDin 1 1, .setStrobe 1, .edge 1 1,
    .sendByte 255 255], l.wellFormed = true := by decide

/-! ### The assembler -/

/-- The two words that 30_encoding.md R76 writes out, with a comment and the two other number bases. -/
theorem test_assemble_R76 :
    assembleText ["READ.NB 4 ; four", "SELECT 1", "", "SELECT S", "TX_LOAD_P 0xB2", "SET_DIN 1, 0b1"] =
      some [.command 0x18000004, .command 0x20000001, .command 0x20000001, .command 0x800000B2, .event 0x13] := by decide

theorem test_assemble_rejects : assembleText ["TX_LOAD_P 256"] = none ∧ assembleText ["READ"] = none ∧
    assembleText ["HALT"] = none := by decide

/-- The words of `SENDBYTE.MSB 0xB2, 0x00` (W6): the first two edges and the last. -/
theorem test_sendByteMsb_W6 : (assembleLine (.sendByteMsb 0xB2 0x00)).map (fun xs => (xs.length, xs.take 8, xs.drop 28)) =
    some (32, [.event 0x11, .event 0x12, .event 0x20, .event 0x21, .event 0x10, .event 0x12, .event 0x20, .event 0x21],
      [.event 0x10, .event 0x12, .event 0x20, .event 0x21]) := by decide

/-! ### Line events -/

theorem test_setDin_E1 : (nextOf (exec (.setDin .primary true) State.reset)).map (fun s => (s.rx.din, s.rx.edgeCnt)) =
    some (⟨true, false⟩, 0) := by decide

/-- E-13. -/
theorem test_setDin_E13 : exec (.setDin .primary true) (State.powerOn { Config.bench with loopback := true }) =
    .refused .lineDrivenByLoopback := rfl

/-- E-6, the example of 41_edge_decoder.md R102. -/
theorem test_setStrobe_E6 : (nextOf (exec (.setStrobe true)
    (block { Rx.powerOn with pos := ⟨7, 7⟩, acc := ⟨0x32, 0x4D⟩, din := ⟨true, false⟩ } Tx.powerOn))).map
      (fun s => (s.rx.q, s.rx.acc, s.rx.pos, s.rx.edgeCnt)) = some (⟨[0xB2], [0x4D]⟩, ⟨0, 0⟩, ⟨0, 0⟩, 1) := by decide

/-- E-9: both queues are full, and channel 0's drop counter wraps. -/
theorem test_setStrobe_E9 : (nextOf (exec (.setStrobe true)
    { block { Rx.powerOn with pos := ⟨7, 7⟩, q := ⟨[0], [0]⟩, dropCnt := ⟨0xFFFFFFFF, 0⟩ } Tx.powerOn with
      cfg := { Config.bench with cap := 1 } })).map (fun s => (s.rx.dropCnt, s.rx.q)) =
    some (⟨0, 1⟩, ⟨[0], [0]⟩) := by decide

/-! ### The read interface -/

theorem test_read_R1 : (nextOf (exec (.read 2) (block (queues [0x11, 0x22, 0x33] [] .primary) Tx.powerOn))).map
    (fun s => (s.rx.q, s.responses)) = some (⟨[0x33], []⟩, response .ok 2 [0x11, 0x22]) := by decide
theorem test_read_R5 : (nextOf (exec (.read 5) State.reset)).map (fun s => (s.rx.port, s.responses)) =
    some (.pending .primary 5, []) := by decide
theorem test_readNb_R2 : (nextOf (exec (.readNb 65535) (block (queues [0x11, 0x22, 0x33] [] .primary) Tx.powerOn))).map
    (fun s => (s.rx.q, s.responses)) = some (⟨[], []⟩, response .ok 3 [0x11, 0x22, 0x33]) := by decide
theorem test_readNb_R4 : (nextOf (exec (.readNb 1) State.reset)).map (fun s => (s.rx.port, s.responses)) =
    some (.idle, response .wouldBlock 0 []) := by decide

/-- R-7: COMPLETE on RDC's turn. -/
theorem test_complete_R7 : (nextOf (step { block { queues [0x01, 0x02] [] .primary with port := .pending .primary 2 }
    Tx.powerOn with inputs := [.rdc] })).map (fun s => (s.rx.q, s.rx.port, s.responses)) =
    some (⟨[], []⟩, .idle, response .ok 2 [0x01, 0x02]) := by decide

/-- R-10, the CANCEL side. -/
theorem test_cancel_R10 : (nextOf (exec .cancel (block { queues [0x55] [] .primary with port := .pending .primary 2 }
    Tx.powerOn))).map (fun s => (s.rx.q, s.rx.port, s.responses)) =
    some (⟨[0x55], []⟩, .idle, response .restart 0 []) := by decide
theorem test_cancel_R9 : exec .cancel State.reset = .next State.reset := rfl

theorem test_select_S1 : (nextOf (exec (.select 1) State.reset)).map (fun s => (s.rx.sel, s.responses)) =
    some (.secondary, response .ok 0 []) := by decide
theorem test_select_S4 : (nextOf (exec (.select 0xFFFF) State.reset)).map (fun s => (s.rx.sel, s.responses)) =
    some (.primary, response .inval 0 []) := by decide
theorem test_query_S6 : (nextOf (exec .query (block (queues [] [] .secondary) Tx.powerOn))).map State.responses =
    some (response .ok 1 []) := by decide
theorem test_getCount_O1 : (nextOf (exec (.getCount 1) (block (queues [] [0x5A] .primary) Tx.powerOn))).map State.responses =
    some (response .ok 1 []) := by decide
theorem test_getCount_O2 : (nextOf (exec (.getCount 2) State.reset)).map State.responses =
    some (response .inval 0 []) := by decide
theorem test_getEdges_O4 : (nextOf (exec .getEdges (block { Rx.powerOn with edgeCnt := 3 } Tx.powerOn))).map
    State.responses = some (response .ok 3 []) := by decide
theorem test_getDrops_O5 : (nextOf (exec (.getDrops 0) (block { Rx.powerOn with dropCnt := ⟨2, 0⟩ } Tx.powerOn))).map
    (fun s => (s.rx.dropCnt, s.responses)) = some (⟨2, 0⟩, response .ok 2 []) := by decide
theorem test_getDrops_O6 : (nextOf (exec (.getDrops 2) State.reset)).map State.responses =
    some (response .inval 0 []) := by decide

/-! ### The transmitter -/

theorem test_txLoadP_T1 : (nextOf (exec (.txLoadP 0xB2) State.reset)).map (fun s => (s.tx.buf, s.responses)) =
    some (⟨[0xB2], []⟩, response .ok 0 []) := by decide
theorem test_txLoadP_T3 : (nextOf (exec (.txLoadP 0) (block Rx.powerOn (running 0 .setup 1)))).map
    (fun s => (s.tx.buf, s.responses)) = some (⟨[0xB2], [0x5A]⟩, response .busy 0 []) := by decide
theorem test_txLoadS_T2 : (nextOf (exec (.txLoadS 2) { block Rx.powerOn (loaded [] [0x01] 0) with
    cfg := { Config.bench with txDepth := 1 } })).map (fun s => (s.tx.buf, s.responses)) =
    some (⟨[], [0x01]⟩, response .full 0 []) := by decide
theorem test_txPeriod_T4 : (nextOf (exec (.txPeriod 0) (block Rx.powerOn (running 0 .setup 1)))).map State.responses =
    some (response .busy 0 []) := by decide
theorem test_txPeriod_T5 : (nextOf (exec (.txPeriod 0) (block Rx.powerOn (loaded [] [] 7)))).map
    (fun s => (s.tx.period, s.responses)) = some (7, response .precond 0 []) := by decide
theorem test_txStart_T7 : (nextOf (exec .txStart (block Rx.powerOn (loaded [0x01, 0x02] [0x03] 1)))).map
    (fun s => (s.tx.oe, s.responses)) = some (false, response .precond 0 []) := by decide
theorem test_txStart_T10 : (nextOf (exec .txStart (block Rx.powerOn (loaded [0xB2] [0x5A] 1)))).map State.tx =
    some (running 0 .setup 1) := by decide
theorem test_txStop_T11 : (nextOf (exec .txStop (block Rx.powerOn (loaded [0x01] [0x02] 9)))).map State.tx =
    some (loaded [] [] 9) := by decide
theorem test_txQuery_T13 : (nextOf (exec (.txQuery 2) (block Rx.powerOn (running 0 .setup 1)))).map State.responses =
    some (response .ok 1 []) := by decide
theorem test_txQuery_T14 : (nextOf (exec (.txQuery 4) State.reset)).map State.responses =
    some (response .inval 0 []) := by decide
theorem test_tick_K4 : (nextOf (exec .tick (block Rx.powerOn (running 0 .dead 1)))).map State.tx =
    some (running 1 .setup 1) := by decide
theorem test_tick_K6 : (nextOf (exec .tick (block Rx.powerOn (running 7 .gap 1)))).map State.tx =
    some (running 0 .setup 1) := by decide

/-- X-1: RESET keeps the line levels and PERIOD is cleared. -/
theorem test_reset_X1 : (nextOf (exec .reset (block
    { queues [0x11] [] .secondary with
      pos := ⟨3, 3⟩, acc := ⟨0x05, 0x02⟩, edgeCnt := 11, dropCnt := ⟨4, 0⟩, din := ⟨true, true⟩, strobeIn := true }
    (running 3 .pulse 1)))).map (fun s => (s.rx, s.tx)) =
    some ({ Rx.powerOn with din := ⟨true, true⟩, strobeIn := true }, Tx.powerOn) := by decide

/-! ### The step -/

/-- A stored word is run by the very next step. -/
theorem test_step_runs_word : step (State.reset.withFetchWord 32 0x20000001) = exec (.select 1) State.reset := rfl

/-- D-10: decoding before BUSY. -/
theorem test_step_illegal_D10 : (nextOf (step ((block Rx.powerOn (running 0 .setup 1)).withFetchWord 32 0x80000100))).map
    State.responses = some (response .illegal 0 []) := by decide

/-! ### Witnesses: for each statement with hypotheses, concrete cases that meet them, a case for each clause -/

/-- The block of the vectors with these inputs waiting. -/
def waiting (r : Rx) (t : Tx) (xs : List Input) : State := { block r t with inputs := xs }

/-- A block with CAP = 1, both queues empty, at the last bit of a byte. -/
def lastBit (q0 q1 : List Byte) : State :=
  { block { queues q0 q1 .primary with pos := ⟨7, 7⟩ } Tx.powerOn with cfg := { Config.bench with cap := 1 } }

/-- A looped block that runs, with the receiver's lines at the driven levels. -/
def looped : State :=
  { block { queues [0x11] [] .secondary with din := ⟨false, true⟩, edgeCnt := 3, pos := ⟨3, 3⟩ } (running 3 .dead 1) with
    cfg := { Config.bench with loopback := true } }

/-- The block of the vectors without a transmitter. -/
def withoutTx : State := State.powerOn { Config.bench with hasTx := false }

theorem witness_DecodeInvertsEncode :
    (Instr.read 65535).wellFormed false = true ∧ (Instr.txQuery 3).wellFormed true = true := by decide
theorem witness_EncodeInvertsDecode :
    decode false (.command 0x1800FFFF) = .ok (.readNb 65535) ∧ decode true (.event 0x12) = .ok (.setDin .secondary false) :=
  ⟨rfl, rfl⟩

/-- One word for each of the five grounds. -/
theorem witness_ReservedCommandWordsAreAnsweredIllegal :
    (waiting Rx.powerOn Tx.powerOn [.command 0xF0000000]).rx.port = .idle ∧
    (0xF0000000#32).toNat / 2 ^ 28 ∈ [0x0, 0x7, 0xD, 0xF] ∧
    (0x20010001#32).toNat / 2 ^ 16 % 2 ^ 11 ≠ 0 ∧
    ((0xE8000000#32).toNat / 2 ^ 27 % 2 = 1 ∧ (0xE8000000#32).toNat / 2 ^ 28 ≠ 0x1) ∧
    ((0xC0000001#32).toNat / 2 ^ 28 ∈ [0x3, 0x5, 0xB, 0xC] ∧ (0xC0000001#32).toNat % 2 ^ 16 ≠ 0) ∧
    ((0xE0000000#32).toNat / 2 ^ 28 ∈ [0x8, 0x9, 0xA, 0xB, 0xC, 0xE] ∧ withoutTx.cfg.hasTx = false) := by decide
theorem witness_LoadsWithAHighArgAreAnsweredIllegal :
    (waiting Rx.powerOn Tx.powerOn [.command 0x80000100]).rx.port = .idle ∧
    (0x80000100#32).toNat / 2 ^ 28 ∈ [0x8, 0x9] ∧ (0x80000100#32).toNat / 2 ^ 8 % 2 ^ 8 ≠ 0 ∧
    (0x9000FF00#32).toNat / 2 ^ 28 ∈ [0x8, 0x9] ∧ (0x9000FF00#32).toNat / 2 ^ 8 % 2 ^ 8 ≠ 0 := by decide
theorem witness_ReservedEventWordsAreRefused :
    0x14#8 ∉ [0x10#8, 0x11#8, 0x12#8, 0x13#8, 0x20#8, 0x21#8, 0x30#8, 0x40#8, 0x50#8] ∧
    (waiting Rx.powerOn Tx.powerOn [.event 0x14, .rdc]).inputs = .event 0x14 :: [.rdc] ∧
    0x50#8 ∈ [0x10#8, 0x11#8, 0x12#8, 0x13#8, 0x20#8, 0x21#8, 0x30#8, 0x40#8, 0x50#8] := by decide

theorem witness_StepRunsTheDecodedInstruction_command :
    (waiting Rx.powerOn Tx.powerOn [.command 0xA000FFFF]).rx.port = .idle ∧
    decodeCommand (waiting Rx.powerOn Tx.powerOn [.command 0xA000FFFF]).cfg.hasTx 0xA000FFFF = .ok (.txPeriod 65535) :=
  ⟨rfl, rfl⟩
theorem witness_StepRunsTheDecodedInstruction_event :
    (waiting Rx.powerOn Tx.powerOn [.event 0x21]).inputs = .event 0x21 :: [] ∧ decodeEvent 0x21 = .ok (.setStrobe true) :=
  ⟨rfl, rfl⟩

/-- The clauses: data has arrived (with another command behind); behind two commands an event, a reserved event word, RDC's
turn; commands alone. -/
theorem witness_CommandsWaitWhileThePortIsHeld :
    (let s := waiting { queues [] [0xFF] .secondary with port := .pending .secondary 1 } Tx.powerOn
        [.command 0x20000000, .command 0x30000000];
      s.rx.port = .pending .secondary 1 ∧ [0xFF] = s.rx.q.get .secondary ∧ [0xFF#8] ≠ [] ∧
      s.inputs = .command 0x20000000 :: [.command 0x30000000]) ∧
    (∀ x ∈ [Input.event 0x30, .event 0x14, .rdc],
      let s := waiting { Rx.powerOn with port := .pending .primary 65535 } Tx.powerOn
        [.command 0x20000000, .command 0x30000000, x, .event 0x50];
      s.rx.port = .pending .primary 65535 ∧ [] = s.rx.q.get .primary ∧
      s.inputs = .command 0x20000000 :: ([0x30000000#32].map .command ++ x :: [.event 0x50])) ∧
    (let s := waiting { Rx.powerOn with port := .pending .primary 1 } Tx.powerOn [.command 0x20000000];
      s.rx.port = .pending .primary 1 ∧ [] = s.rx.q.get .primary ∧ s.inputs = .command 0x20000000 :: [].map .command) := by
  decide
theorem witness_CommandsWaitWhileThePortIsHeld_event :
    decodeEvent 0x30 = .ok .cancel ∧ decodeEvent 0x14 = .error .reservedEvent := ⟨rfl, rfl⟩
theorem witness_EventProgramsRunInOrder :
    (∀ i ∈ [Instr.setStrobe true, .tick], ∃ w : BitVec 8, encode i = .event w) ∧ State.reset.inputs = [] := by
  refine ⟨fun i hi => ?_, rfl⟩
  simp only [List.mem_cons, List.not_mem_nil, or_false] at hi
  rcases hi with rfl | rfl <;> exact ⟨_, rfl⟩

theorem witness_SetDinWritesOneLevel : State.reset.cfg.loopback = false ∧ looped.cfg.loopback = true := by decide
theorem witness_SetStrobeWithoutARiseOnlyRecords :
    (let s := block { Rx.powerOn with strobeIn := true } Tx.powerOn; s.cfg.loopback = false ∧ s.rx.strobeIn = true) ∧
    looped.cfg.loopback = true := by decide

/-- The first and the last position before the 8th bit, then the 8th with room and with a full queue. -/
theorem witness_RisingStrobeSamplesBothChannels :
    (State.reset.cfg.loopback = false ∧ State.reset.rx.strobeIn = false ∧ (State.reset.rx.pos.get .primary).toNat < 7) ∧
    ((block { Rx.powerOn with pos := ⟨6, 6⟩ } Tx.powerOn).rx.pos.get .secondary).toNat < 7 ∧
    ((lastBit [] []).cfg.loopback = false ∧ (lastBit [] []).rx.strobeIn = false ∧
      ((lastBit [] []).rx.pos.get .primary).toNat = 7 ∧
      ((lastBit [] []).rx.q.get .primary).length < (lastBit [] []).cfg.cap) ∧
    (((lastBit [] [0x00]).rx.pos.get .secondary).toNat = 7 ∧
      (lastBit [] [0x00]).cfg.cap ≤ ((lastBit [] [0x00]).rx.q.get .secondary).length) := by decide

/-- Room for exactly one byte. -/
theorem witness_SendByteIsAssembledUnchanged :
    let s := { State.reset with cfg := { Config.bench with cap := 1 } };
    s.cfg.loopback = false ∧ s.rx.pos = ⟨0, 0⟩ ∧ s.rx.acc = ⟨0, 0⟩ ∧ (s.rx.q.get .primary).length < s.cfg.cap ∧
      (s.rx.q.get .secondary).length < s.cfg.cap := by decide
theorem witness_MsbFirstReversesTheBits :
    let s := { block (queues [1] [2] .primary) Tx.powerOn with cfg := { Config.bench with cap := 2 } };
    s.cfg.loopback = false ∧ s.rx.pos = ⟨0, 0⟩ ∧ s.rx.acc = ⟨0, 0⟩ ∧ (s.rx.q.get .primary).length < s.cfg.cap ∧
      (s.rx.q.get .secondary).length < s.cfg.cap := by decide
theorem witness_ShiftRegisterEmitsTheSameByte :
    (List.replicate 8 (true, false)).length = 8 ∧ State.reset.cfg.loopback = false ∧ State.reset.rx.pos = ⟨0, 0⟩ ∧
      State.reset.rx.acc = ⟨0, 0⟩ ∧ (State.reset.rx.q.get .primary).length < State.reset.cfg.cap ∧
      (State.reset.rx.q.get .secondary).length < State.reset.cfg.cap := by decide
theorem witness_EveryEmittedByteIsQueuedOrCounted : ({ Config.bench with cap := 1 }).loopback = false := rfl

/-- Two blocks that differ in all that Secondary has and agree on Primary. -/
theorem witness_ChannelsAreIndependent :
    let s := lastBit [] [];
    let s' := { lastBit [] [0xAA] with rx := { (lastBit [] [0xAA]).rx with din := ⟨false, true⟩, pos := ⟨7, 2⟩ } };
    s.cfg = s'.cfg ∧ s.rx.strobeIn = s'.rx.strobeIn ∧ s.rx.din.get .primary = s'.rx.din.get .primary ∧
      s.rx.acc.get .primary = s'.rx.acc.get .primary ∧ s.rx.pos.get .primary = s'.rx.pos.get .primary ∧
      s.rx.q.get .primary = s'.rx.q.get .primary ∧ s.rx.dropCnt.get .primary = s'.rx.dropCnt.get .primary ∧
      (∃ t, exec (.setStrobe true) s = .next t) ∧ ∃ t', exec (.setStrobe true) s' = .next t' :=
  ⟨rfl, rfl, rfl, rfl, rfl, rfl, rfl, ⟨_, rfl⟩, ⟨_, rfl⟩⟩

theorem witness_ReadTakesFromTheSelectedQueue :
    (1 : Arg) ≠ 0 ∧ (65535 : Arg) ≠ 0 ∧
    (let s := block (queues [] [0x11] .secondary) Tx.powerOn; s.rx.q.get s.rx.sel ≠ []) ∧
    State.reset.rx.q.get State.reset.rx.sel = [] := by decide
theorem witness_CompleteAnswersThePendingRead :
    (let s := waiting { queues [0x01, 0x02] [] .primary with port := .pending .primary 1 } Tx.powerOn [.rdc];
      s.inputs = .rdc :: [] ∧ s.rx.port = .pending .primary 1 ∧ s.rx.q.get .primary ≠ []) ∧
    (let s := waiting { Rx.powerOn with port := .pending .secondary 65535 } Tx.powerOn [.rdc, .event 0x50];
      s.inputs = .rdc :: [.event 0x50] ∧ s.rx.port = .pending .secondary 65535 ∧ s.rx.q.get .secondary = []) ∧
    (let s := waiting Rx.powerOn Tx.powerOn [.rdc]; s.inputs = .rdc :: [] ∧ s.rx.port = .idle) ∧
    (let s := waiting { queues [] [0xFF] .primary with port := .pending .secondary 4 } Tx.powerOn [];
      s.inputs = [] ∧ s.rx.port = .pending .secondary 4 ∧ s.rx.q.get .secondary ≠ []) ∧
    (State.reset.inputs = [] ∧ State.reset.rx.port = .idle) := by decide
theorem witness_CancelEndsThePendingRead :
    (block { queues [0x55] [] .primary with port := .pending .primary 1 } Tx.powerOn).rx.port = .pending .primary 1 ∧
    State.reset.rx.port = .idle := by decide
theorem witness_SelectSetsTheChannel :
    (0 : Arg).toNat = 0 ∧ (1 : Arg).toNat = 1 ∧ 2 ≤ (2 : Arg).toNat ∧ 2 ≤ (65535 : Arg).toNat := by decide
theorem witness_QueryReturnsTheChannel :
    State.reset.rx.sel = .primary ∧ (block (queues [] [] .secondary) Tx.powerOn).rx.sel = .secondary := by decide
theorem witness_GetCountReturnsTheLength :
    ((0 : Arg).toNat = 0 ∧ (1 : Arg).toNat = 1 ∧ 2 ≤ (2 : Arg).toNat) ∧
    (State.reset.rx.q.get .primary).length < 2 ^ 32 ∧
    2 ^ 32 ≤ ((block (queues [] (List.replicate (2 ^ 32) 0) .primary) Tx.powerOn).rx.q.get .secondary).length := by
  refine ⟨by decide, by decide, ?_⟩
  show 2 ^ 32 ≤ (List.replicate (2 ^ 32) (0 : Byte)).length
  rw [List.length_replicate]
theorem witness_GetDropsReturnsTheCounter : (0 : Arg).toNat = 0 ∧ (1 : Arg).toNat = 1 ∧ 2 ≤ (2 : Arg).toNat := by decide

/-- The four clauses: room, a full buffer, running, no transmitter. -/
theorem witness_TxLoadAppendsOneByte :
    (State.reset.cfg.hasTx = true ∧ State.reset.tx.run = false ∧
      (State.reset.tx.buf.get .primary).length ≠ State.reset.cfg.txDepth) ∧
    (let s := { block Rx.powerOn (loaded [] [0x01] 0) with cfg := { Config.bench with txDepth := 1 } };
      s.cfg.hasTx = true ∧ s.tx.run = false ∧ (s.tx.buf.get .secondary).length = s.cfg.txDepth) ∧
    (looped.cfg.hasTx = true ∧ looped.tx.run = true) ∧ withoutTx.cfg.hasTx = false := by decide
theorem witness_TxPeriodSetsThePeriod :
    (State.reset.cfg.hasTx = true ∧ State.reset.tx.run = false ∧ (1 : Arg) ≠ 0 ∧ (65535 : Arg) ≠ 0) ∧
    (looped.cfg.hasTx = true ∧ looped.tx.run = true) ∧ withoutTx.cfg.hasTx = false := by decide
theorem witness_TxStartEntersSetupOfBitZero :
    let s := block Rx.powerOn (loaded [0xB2] [0x5A] 1);
    s.cfg.hasTx = true ∧ s.tx.run = false ∧ s.tx.buf = ⟨0xB2 :: [], 0x5A :: []⟩ ∧
      ([] : List Byte).length = ([] : List Byte).length ∧ s.tx.period ≠ 0 := by decide

/-- Running; unequal lengths; empty buffers; no period; no transmitter. -/
theorem witness_FailingTxStartTouchesNoPin :
    (looped.cfg.hasTx = true ∧ looped.tx.run = true) ∧
    (let s := block Rx.powerOn (loaded [0x01, 0x02] [0x03] 1);
      s.cfg.hasTx = true ∧ s.tx.run = false ∧ s.tx.buf.primary.length ≠ s.tx.buf.secondary.length) ∧
    (block Rx.powerOn (loaded [] [] 1)).tx.buf.primary = [] ∧
    (block Rx.powerOn (loaded [0x01] [0x02] 0)).tx.period = 0 ∧ withoutTx.cfg.hasTx = false := by decide
theorem witness_TxStopReleasesEverything : looped.cfg.hasTx = true ∧ withoutTx.cfg.hasTx = false := by decide
theorem witness_TxQueryReadsTheTransmitter :
    looped.cfg.hasTx = true ∧ (0 : Arg).toNat = 0 ∧ (1 : Arg).toNat = 1 ∧ (2 : Arg).toNat = 2 ∧ (3 : Arg).toNat = 3 ∧
      4 ≤ (4 : Arg).toNat ∧ looped.tx.buf.primary.length < 2 ^ 32 ∧ looped.tx.buf.secondary.length < 2 ^ 32 ∧
      withoutTx.cfg.hasTx = false := by decide

/-- Idle; inside a phase; and the last tick of each phase, the dead interval of bits 6 and 7 both. -/
theorem witness_TickAdvancesTheSequencer :
    (State.reset.tx.run = false ∧ withoutTx.cfg.hasTx = false) ∧
    (let s := block Rx.powerOn (running 0 .setup 2); s.cfg.hasTx = true ∧ s.tx.run = true ∧ 2 ≤ s.tx.tmr) ∧
    (∀ ph ∈ [Phase.setup, .pulse, .gap], (block Rx.powerOn (running 7 ph 1)).tx.tmr = 1 ∧
      (block Rx.powerOn (running 7 ph 1)).tx.ph = ph ∧ (block Rx.powerOn (running 7 ph 1)).tx.run = true) ∧
    (let s := block Rx.powerOn (running 6 .dead 1);
      s.tx.tmr = 1 ∧ s.tx.ph = .dead ∧ s.tx.i.toNat < 7 ∧ s.tx.buf.primary[s.tx.k]? = some 0xB2 ∧
        s.tx.buf.secondary[s.tx.k]? = some 0x5A) ∧
    (let s := block Rx.powerOn (running 7 .dead 1); s.tx.tmr = 1 ∧ s.tx.ph = .dead ∧ s.tx.i.toNat = 7) ∧
    (let s := block Rx.powerOn (running 7 .gap 1);
      0 = (s.tx.k + 1) % s.tx.buf.primary.length ∧ s.tx.buf.primary[0]? = some 0xB2 ∧
        s.tx.buf.secondary[0]? = some 0x5A) := by decide
theorem witness_PropagateSetsDataBeforeStrobe :
    (Rx.powerOn.strobeIn = false ∧ true = true) ∧ ¬(Rx.powerOn.strobeIn = false ∧ false = true) ∧
    ¬({ Rx.powerOn with strobeIn := true }.strobeIn = false ∧ true = true) := by decide

/-- Sample 0, bit 0, and sample 1, bit 7, with T = (1, 1, 1), PERIOD = 1 and TICKS_PER_MS = 1 (B = 3, S = 25). -/
theorem witness_TransmitterKeepsTheTimingLaw :
    let s := block Rx.powerOn (loaded [0xB2] [0x5A] 1);
    s.cfg.Legal ∧ s.cfg.hasTx = true ∧ s.tx.run = false ∧
      (0 = 0 * (8 * (s.cfg.tSetup + s.cfg.tPulse + s.cfg.tDead) + s.tx.period.toNat * s.cfg.ticksPerMs) +
        (0 : BitVec 3).toNat * (s.cfg.tSetup + s.cfg.tPulse + s.cfg.tDead)) ∧
      (46 = 1 * (8 * (s.cfg.tSetup + s.cfg.tPulse + s.cfg.tDead) + s.tx.period.toNat * s.cfg.ticksPerMs) +
        (7 : BitVec 3).toNat * (s.cfg.tSetup + s.cfg.tPulse + s.cfg.tDead)) := by decide
theorem witness_TransmitterKeepsTheTimingLaw_start :
    ∃ t, exec .txStart (block Rx.powerOn (loaded [0xB2] [0x5A] 1)) = .next t ∧ t.tx.run = true := ⟨_, rfl, rfl⟩

/-- A queue that the first sample fills. -/
theorem witness_LoopbackRoundTrip :
    let s := { block Rx.powerOn (loaded [0xB2] [0x5A] 1) with cfg := { Config.bench with loopback := true, cap := 1 } };
    s.cfg.Legal ∧ s.cfg.loopback = true ∧ s.cfg.hasTx = true ∧ s.tx.run = false ∧ s.rx.pos = ⟨0, 0⟩ ∧ s.rx.acc = ⟨0, 0⟩ ∧
      (s.rx.q.get .primary).length + 0 < s.cfg.cap ∧ (s.rx.q.get .secondary).length + 0 < s.cfg.cap := by decide
theorem witness_LoopbackRoundTrip_start :
    ∃ t, exec .txStart { block Rx.powerOn (loaded [0xB2] [0x5A] 1) with
      cfg := { Config.bench with loopback := true, cap := 1 } } = .next t ∧ t.tx.run = true := ⟨_, rfl, rfl⟩
theorem witness_PowerOnValues : State.reset = State.powerOn Config.bench := rfl
theorem witness_ResetKeepsOnlyTheLineLevels : looped.cfg.hasTx = true ∧ withoutTx.cfg.hasTx = false := by decide
theorem witness_EverythingIsAcceptedAfterReset :
    (block Rx.powerOn (running 3 .pulse 1)).cfg.loopback = false ∧ looped.cfg.loopback = true ∧
    (∀ c v, Instr.tick ≠ .setDin c v) ∧ ∀ v, Instr.tick ≠ .setStrobe v :=
  ⟨rfl, rfl, fun _ _ => by simp, fun _ => by simp⟩

/-- A looped block in the middle of a sample meets every invariant, and a TICK takes it on. -/
theorem witness_looped_invariant : looped.Inv where
  cfgLegal := by decide
  accClear := by
    intro c j h1 h2
    cases c <;> exact (by simp [looped, block, queues, Rx.powerOn, Both.get, Both.same])
  posEqual := rfl
  posCounts := by intro c; cases c <;> decide
  queuesFit := by intro c; cases c <;> decide
  portLegal := by intro ch n h; cases h
  txLegal := {
    buffersFit := by intro c; cases c <;> decide
    running := fun _ => {
      sameLength := rfl, inRange := by decide, periodSet := by decide, timerLow := by decide, timerHigh := by decide
      driven := rfl, strobe := rfl, gapBit := by intro h; cases h
      data := by intro c; cases c <;> exact ⟨_, rfl, rfl⟩ }
    resting := by intro h; cases h
    absent := by intro h; cases h }
  linesLooped := fun _ _ => ⟨rfl, rfl⟩
theorem witness_looped_step : ∃ t, step { looped with inputs := [.event 0x50] } = .next t := ⟨_, rfl⟩
theorem witness_AccumulatorStaysClearAbovePos :
    looped.rx.AccClear ∧ State.reset.rx.AccClear ∧ State.reset.rx.pos.get .primary = 0 :=
  ⟨witness_looped_invariant.accClear, by intro c j _ _; cases c <;> simp [State.reset, State.powerOn, Rx.powerOn, Both.get, Both.same], rfl⟩
theorem witness_PositionsStayEqual : looped.rx.PosEqual := rfl
theorem witness_PositionCountsTheEdges : looped.rx.PosCounts ∧ ∃ t, exec .reset looped = .next t :=
  ⟨witness_looped_invariant.posCounts, _, rfl⟩
theorem witness_QueuesStayWithinCapacity : looped.rx.QueuesFit looped.cfg.cap := witness_looped_invariant.queuesFit
theorem witness_PowerOnHasTheInvariant : ({ Config.bench with cap := 1, txDepth := 4294967295 }).Legal := by decide

/-- A refused step of a state with the invariants: ENV's SET_DIN under LOOPBACK. -/
theorem witness_NothingTraps : step { looped with inputs := [.event 0x10] } = .refused .lineDrivenByLoopback := rfl
theorem witness_StepKeepsParametersAndDeliversAtMostOneResponse :
    ∃ t, step (waiting Rx.powerOn Tx.powerOn [.command 0x30000000]) = .next t := ⟨_, rfl⟩
theorem witness_ResponsesHaveTheirShape :
    (∃ t, step (waiting (queues [0x11] [] .primary) Tx.powerOn [.command 0x10000001]) = .next t ∧
      t.responses = [] ++ [⟨.ok, 1, [0x11]⟩]) ∧
    ∃ t, step (waiting Rx.powerOn Tx.powerOn [.command 0x20000002]) = .next t ∧ t.responses = [] ++ [⟨.inval, 0, []⟩] :=
  ⟨⟨_, rfl, rfl⟩, ⟨_, rfl, rfl⟩⟩
theorem witness_FailingCommandsChangeNothing :
    ∃ t, exec (.readNb 1) State.reset = .next t ∧ t.responses = State.reset.responses ++ [⟨.wouldBlock, 0, []⟩] :=
  ⟨_, rfl, rfl⟩
theorem witness_TransmitterAndReceiverShareNoState :
    (Instr.txStart.needsTx = true ∧ State.reset.cfg.loopback = false ∧ (∃ t, exec .txStart State.reset = .next t)) ∧
    ((Instr.setStrobe true).needsTx = false ∧ Instr.setStrobe true ≠ .tick ∧ Instr.setStrobe true ≠ .reset ∧
      ∃ t, exec (.setStrobe true) State.reset = .next t) ∧
    (let s' := block (queues [1] [2] .secondary) Tx.powerOn;
      State.reset.cfg = s'.cfg ∧ State.reset.tx = s'.tx ∧ (∃ t, exec .tick State.reset = .next t) ∧
        ∃ t', exec .tick s' = .next t') ∧
    (let s' := block Rx.powerOn (running 3 .pulse 1);
      (Instr.readNb 1).needsTx = false ∧ Instr.readNb 1 ≠ .tick ∧ State.reset.cfg = s'.cfg ∧ State.reset.rx = s'.rx ∧
        State.reset.responses = s'.responses ∧ (∃ t, exec (.readNb 1) State.reset = .next t) ∧
        ∃ t', exec (.readNb 1) s' = .next t') :=
  ⟨⟨rfl, rfl, _, rfl⟩, ⟨rfl, by simp, by simp, _, rfl⟩, ⟨rfl, rfl, ⟨_, rfl⟩, ⟨_, rfl⟩⟩,
    rfl, by simp, rfl, rfl, rfl, ⟨_, rfl⟩, ⟨_, rfl⟩⟩
theorem witness_QueuesAreFirstInFirstOut :
    (waiting (queues [0x11] [] .primary) Tx.powerOn [.command 0x10000001]).rx.PortLegal ∧
    ∃ t, step (waiting (queues [0x11] [] .primary) Tx.powerOn [.command 0x10000001]) = .next t :=
  ⟨(by intro ch n h; cases h), _, rfl⟩
theorem witness_CompleteStaysEnabled :
    let s := waiting { queues [0x55] [] .primary with port := .pending .primary 2 } Tx.powerOn [.event 0x21];
    completeEnabled s = true ∧ ∃ t, step s = .next t := ⟨rfl, _, rfl⟩

/-- One pending READ with data, and the three inputs that end it (R-10, R-11), and one that does not. -/
theorem witness_PendingReadEndsInOneOfThreeWays :
    (1 : Arg) ≠ 0 ∧ ∀ x ∈ [Input.rdc, .event 0x30, .event 0x40, .event 0x50],
      let s := waiting { queues [0x55] [] .primary with port := .pending .primary 1 } Tx.powerOn [x];
      s.rx.port = .pending .primary 1 ∧ (nextOf (step s)).isSome = true := by decide
theorem witness_RunningTransmitterIsNotChanged :
    looped.tx.run = true ∧ Instr.tick ≠ .txStop ∧ Instr.tick ≠ .reset ∧ ∃ t, exec .tick looped = .next t :=
  ⟨rfl, by simp, by simp, _, rfl⟩
theorem witness_DataChangesOnlyOnEnteringSetup :
    (∃ t, step (waiting Rx.powerOn (running 0 .dead 1) [.event 0x50]) = .next t ∧ t.tx.dout ≠ (running 0 .dead 1).dout) ∧
    ∃ t, step (waiting Rx.powerOn (running 7 .pulse 1) [.command 0xC0000000]) = .next t ∧
      t.tx.dout ≠ (running 7 .pulse 1).dout :=
  ⟨⟨_, rfl, by decide⟩, ⟨_, rfl, by decide⟩⟩
theorem witness_StepKeepsTheLoopbackLinesEqual :
    looped.LinesLooped ∧ looped.cfg.loopback = true ∧ looped.tx.oe = true := ⟨fun _ _ => ⟨rfl, rfl⟩, rfl, rfl⟩
theorem witness_DavFollowsTheQueue :
    completeEnabled (block { queues [0x55] [] .primary with port := .pending .primary 2 } Tx.powerOn) = true := rfl
theorem witness_EdgeExpandsToFourWords : (1 ≤ 1 ∧ 0 ≤ 1) ∧ (2 ≤ 2 ∨ 2 ≤ 0) := by decide

end Sys2Proof.Tests
end

/-! ## Proofs: the invariants of the state (10_state.md)

In the order of the model: the decoder step, what a step leaves in the receiver (case analyses of `RxEffect`), the
sequencer, what a step leaves in the rest of the block (case analyses of `Effect`); then the obligations. -/

namespace Sys2Proof.Machine

open Sys2Proof

/-! ### The decoder step, one field at a time (41_edge_decoder.md R102) -/

/-- The 3-bit position wraps from 7 to 0 by itself: the transient 8 of R23 needs no case of its own. -/
@[simp] theorem edge_pos (cap : Nat) (r : Rx) (c : Channel) : (edge cap r).pos.get c = r.pos.get c + 1 := by
  rw [(edge_get c r).2.1]
  rcases Nat.lt_or_ge (r.pos.get c).toNat 7 with hlt | hge
  · rw [edgeChannel_of_lt hlt, rx_setAcc_pos, Both.get_set_same]
    exact BitVec.eq_of_toNat_eq (by simp)
  · have hlast : (r.pos.get c).toNat = 7 := by omega
    rw [edgeChannel_of_eq hlast, rx_setAcc_pos, Both.get_set_same]
    exact BitVec.eq_of_toNat_eq (by simp [hlast])

theorem edge_acc (cap : Nat) (r : Rx) (c : Channel) :
    (edge cap r).acc.get c = if (r.pos.get c).toNat = 7 then 0 else accumulated c r := by
  rw [(edge_get c r).1]
  split
  · rename_i hlast
    rw [edgeChannel_of_eq hlast, rx_setAcc_acc, Both.get_set_same]
  · rename_i hnot
    rw [edgeChannel_of_lt (by omega), rx_setAcc_acc, Both.get_set_same]

/-- EDGE leaves a queue alone or appends one byte to a queue with room (41_edge_decoder.md R104). -/
theorem edge_q (cap : Nat) (r : Rx) (c : Channel) :
    (edge cap r).q.get c = r.q.get c ∨
    (r.q.get c).length < cap ∧ ∃ b, (edge cap r).q.get c = r.q.get c ++ [b] := by
  rw [(edge_get c r).2.2.1]
  rcases Nat.lt_or_ge (r.pos.get c).toNat 7 with hlt | hge
  · rw [edgeChannel_of_lt hlt]
    exact .inl rfl
  · rw [edgeChannel_of_eq (by omega)]
    rcases Nat.lt_or_ge (r.q.get c).length cap with hroom | hfull
    · rw [emit_of_room hroom]
      exact .inr ⟨hroom, _, Both.get_set_same ..⟩
    · rw [emit_of_full hfull]
      exact .inl rfl

/-- The new bit lands at the position: above it the accumulator is unchanged. -/
theorem accumulated_getLsbD_of_gt (c : Channel) (r : Rx) {j : Nat} (h : (r.pos.get c).toNat < j) :
    (accumulated c r).getLsbD j = (r.acc.get c).getLsbD j := by
  simp [accumulated, BitVec.getLsbD_shiftLeft, show ¬ j - (r.pos.get c).toNat = 0 by omega]

theorem edge_accClear {cap : Nat} {r : Rx} (h : r.AccClear) : (edge cap r).AccClear := by
  intro c j hpos hj
  rw [edge_acc]
  split
  · simp
  · rename_i hnot
    have hsucc : (r.pos.get c + 1).toNat = (r.pos.get c).toNat + 1 := by bv_omega
    rw [edge_pos, hsucc] at hpos
    rw [accumulated_getLsbD_of_gt c r hpos]
    exact h c j (Nat.le_of_succ_le hpos) hj

theorem edge_posEqual {cap : Nat} {r : Rx} (h : r.PosEqual) : (edge cap r).PosEqual := by
  have heq : r.pos.get .primary = r.pos.get .secondary := h
  simp only [Rx.PosEqual, edge_pos, heq]

theorem edge_posCounts {cap : Nat} {r : Rx} (h : r.PosCounts) : (edge cap r).PosCounts := by
  intro c
  obtain ⟨_, _, _, _, hcnt⟩ := edge_other cap r
  have hpos := h c
  rw [edge_pos, hcnt]
  bv_omega

/-! ### SET_STROBE: EDGE or not, and the level (41_edge_decoder.md R101) -/

/-- But for the recorded level, SET_STROBE is EDGE or nothing. -/
theorem setStrobe_cases (cap : Nat) (v : Level) (r : Rx) :
    setStrobe cap v r = { edge cap r with strobeIn := v } ∨ setStrobe cap v r = { r with strobeIn := v } := by
  by_cases hrise : r.strobeIn = false ∧ v = true
  · exact .inl (setStrobe_of_rise hrise)
  · exact .inr (setStrobe_of_no_rise hrise)

@[simp] theorem setStrobe_strobeIn (cap : Nat) (v : Level) (r : Rx) : (setStrobe cap v r).strobeIn = v := rfl

@[simp] theorem setStrobe_din (cap : Nat) (v : Level) (r : Rx) : (setStrobe cap v r).din = r.din := by
  obtain ⟨hdin, _⟩ := edge_other cap r
  rcases setStrobe_cases cap v r with h | h <;> rw [h]
  exact hdin

@[simp] theorem setStrobe_port (cap : Nat) (v : Level) (r : Rx) : (setStrobe cap v r).port = r.port := by
  obtain ⟨_, _, _, hport, _⟩ := edge_other cap r
  rcases setStrobe_cases cap v r with h | h <;> rw [h]
  exact hport

/-! ### What a step leaves in the receiver -/

/-- The same accumulators, positions and edge counter: all that R24, R25 and R106 speak of. -/
structure Rx.SameDecoder (x y : Rx) : Prop where
  acc     : x.acc = y.acc
  pos     : x.pos = y.pos
  edgeCnt : x.edgeCnt = y.edgeCnt

theorem Rx.SameDecoder.accClear {x y : Rx} (h : x.SameDecoder y) (hy : y.AccClear) : x.AccClear := by
  rw [Rx.AccClear, h.acc, h.pos]
  exact hy

theorem Rx.SameDecoder.posEqual {x y : Rx} (h : x.SameDecoder y) (hy : y.PosEqual) : x.PosEqual := by
  rw [Rx.PosEqual, h.pos]
  exact hy

theorem Rx.SameDecoder.posCounts {x y : Rx} (h : x.SameDecoder y) (hy : y.PosCounts) : x.PosCounts := by
  rw [Rx.PosCounts, h.pos, h.edgeCnt]
  exact hy

/-- A step leaves the decoder alone, runs EDGE once at some data levels, or puts it back to power-on. -/
theorem RxEffect.decoder {s : State} {r : Rx} (h : RxEffect s r) :
    r.SameDecoder s.rx ∨ (∃ d, r.SameDecoder (edge s.cfg.cap { s.rx with din := d })) ∨ r.SameDecoder Rx.powerOn := by
  cases h with
  | strobe d v =>
    rcases setStrobe_cases s.cfg.cap v { s.rx with din := d } with hs | hs <;> rw [hs]
    · exact .inr (.inl ⟨d, rfl, rfl, rfl⟩)
    · exact .inl ⟨rfl, rfl, rfl⟩
  | resets => exact .inr (.inr ⟨rfl, rfl, rfl⟩)
  | same | port | sel | delivers | din => exact .inl ⟨rfl, rfl, rfl⟩

/-- An invariant of the decoder is kept by every step if it holds at power-on, EDGE keeps it and it does not read the data
levels. -/
theorem RxEffect.keeps {P : Rx → Prop} (same : ∀ {x y : Rx}, x.SameDecoder y → P y → P x) (start : P Rx.powerOn)
    (edges : ∀ {cap : Nat} {r : Rx}, P r → P (edge cap r)) {s : State} {r : Rx} (h : RxEffect s r) (hs : P s.rx) :
    P r := by
  rcases h.decoder with hr | ⟨d, hr⟩ | hr
  · exact same hr hs
  · exact same hr (edges (same (y := s.rx) ⟨rfl, rfl, rfl⟩ hs))
  · exact same hr start

/-- What a step can do to a queue: remove bytes from its front (none, some or all), or append one where there is room. -/
theorem RxEffect.queue {s : State} {r : Rx} (h : RxEffect s r) (c : Channel) :
    r.q.get c <:+ s.rx.q.get c ∨ (s.rx.q.get c).length < s.cfg.cap ∧ ∃ b, r.q.get c = s.rx.q.get c ++ [b] := by
  cases h with
  | same | port | sel | din => exact .inl List.suffix_rfl
  | delivers ch n =>
    left
    by_cases hc : c = ch
    · subst hc
      simp [List.drop_suffix]
    · simp [Both.get_set_of_ne _ _ hc]
  | strobe d v =>
    rcases setStrobe_cases s.cfg.cap v { s.rx with din := d } with hs | hs <;> rw [hs]
    · rcases edge_q s.cfg.cap { s.rx with din := d } c with hq | hq
      · exact .inl (hq ▸ List.suffix_rfl)
      · exact .inr hq
    · exact .inl List.suffix_rfl
  | resets => exact .inl (by simp)

/-- What a step can do to the port: nothing, release it, or leave a READ of at least one byte pending. -/
theorem RxEffect.port_cases {s : State} {r : Rx} (h : RxEffect s r) :
    r.port = s.rx.port ∨ r.port = .idle ∨ ∃ ch n, n ≠ 0 ∧ r.port = .pending ch n := by
  cases h with
  | same | sel | din => exact .inl rfl
  | port p positive =>
    cases p with
    | idle => exact .inr (.inl rfl)
    | pending ch n => exact .inr (.inr ⟨ch, n, positive ch n rfl, rfl⟩)
  | delivers ch n p released =>
    rcases released with rfl | rfl
    · exact .inr (.inl rfl)
    · exact .inl rfl
  | strobe => exact .inl (setStrobe_port ..)
  | resets => exact .inr (.inl rfl)

theorem powerOn_accClear : Rx.powerOn.AccClear := by
  intro c j _ _
  simp [Rx.powerOn]

theorem powerOn_posCounts : Rx.powerOn.PosCounts := by
  intro c
  simp [Rx.powerOn]

theorem powerOn_queuesFit (cap : Nat) : Rx.powerOn.QueuesFit cap := by
  intro c
  simp [Rx.powerOn]

theorem RxEffect.accClear {s : State} {r : Rx} (h : RxEffect s r) (hs : s.rx.AccClear) : r.AccClear :=
  h.keeps Rx.SameDecoder.accClear powerOn_accClear edge_accClear hs

theorem RxEffect.posEqual {s : State} {r : Rx} (h : RxEffect s r) (hs : s.rx.PosEqual) : r.PosEqual :=
  h.keeps Rx.SameDecoder.posEqual rfl edge_posEqual hs

theorem RxEffect.posCounts {s : State} {r : Rx} (h : RxEffect s r) (hs : s.rx.PosCounts) : r.PosCounts :=
  h.keeps Rx.SameDecoder.posCounts powerOn_posCounts edge_posCounts hs

theorem RxEffect.queuesFit {s : State} {r : Rx} (h : RxEffect s r) (hs : s.rx.QueuesFit s.cfg.cap) :
    r.QueuesFit s.cfg.cap := by
  intro c
  rcases h.queue c with hsuffix | ⟨hroom, b, happend⟩
  · exact hsuffix.length_le.trans (hs c)
  · rw [happend, List.length_append]
    exact hroom

theorem RxEffect.portLegal {s : State} {r : Rx} (h : RxEffect s r) (hs : s.rx.PortLegal) : r.PortLegal := by
  intro ch n hr
  rcases h.port_cases with hp | hp | ⟨ch', n', hn, hp⟩
  · exact hs ch n (hp ▸ hr)
  · cases hp.symm.trans hr
  · cases hp.symm.trans hr
    exact hn

theorem accClear_eq_zero {r : Rx} (h : r.AccClear) {c : Channel} (hpos : r.pos.get c = 0) : r.acc.get c = 0 := by
  refine BitVec.eq_of_getLsbD_eq fun j hj => ?_
  rw [h c j (by simp [hpos]) (by omega)]
  simp

/-! ### The end of TX_START and TICK: what the loopback wiring leaves alone -/

@[simp] theorem propagateIfLooped_cfg (s : State) : (propagateIfLooped s).cfg = s.cfg := by
  rw [propagateIfLooped_eq]

@[simp] theorem propagateIfLooped_tx (s : State) : (propagateIfLooped s).tx = s.tx := by
  rw [propagateIfLooped_eq]

@[simp] theorem propagateIfLooped_responses (s : State) : (propagateIfLooped s).responses = s.responses := by
  rw [propagateIfLooped_eq]

/-- The wiring brings the receiver's inputs to the driven levels (40_transmitter.md R96). -/
theorem propagateIfLooped_linesLooped (s : State) : (propagateIfLooped s).LinesLooped := by
  intro hloop _
  rw [propagateIfLooped_cfg] at hloop
  simp [propagateIfLooped_eq, hloop, propagate_eq]

/-! ### The parameters and the record of responses -/

theorem exec_cfg {i : Instr} {s t : State} (h : exec i s = .next t) : t.cfg = s.cfg := by
  cases exec_effect h with
  | starts u => rw [propagateIfLooped_cfg, respond_cfg]
  | enters u => rw [propagateIfLooped_cfg]
  | _ => rfl

/-- An instruction delivers at most one response, at the end of the record. -/
theorem exec_responses {i : Instr} {s t : State} (h : exec i s = .next t) :
    t.responses = s.responses ∨ ∃ r, t.responses = s.responses ++ [r] := by
  cases exec_effect h with
  | nothing | pends | setsDin | setsStrobe | resets | counts => exact .inl rfl
  | responds | delivers | selects | loads | setsPeriod | stops | cancels => exact .inr ⟨_, rfl⟩
  | starts => exact .inr ⟨_, propagateIfLooped_responses _⟩
  | enters => exact .inl (propagateIfLooped_responses _)

/-- Outside the instructions a step changes no parameter, nothing of the transmitter and no line, and it delivers at most
one response. -/
theorem step_exec_or_port {s t : State} (h : step s = .next t) :
    (∃ i xs, exec i { s with inputs := xs } = .next t) ∨
    (t.cfg = s.cfg ∧ t.tx = s.tx ∧ (t.rx.din = s.rx.din ∧ t.rx.strobeIn = s.rx.strobeIn) ∧
      (t.responses = s.responses ∨ ∃ r, t.responses = s.responses ++ [r])) := by
  rcases step_next h with ⟨i, xs, _, hexec⟩ | ⟨_, xs, rfl⟩ | ⟨xs, rfl⟩
  · exact .inl ⟨i, xs, hexec⟩
  · exact .inr ⟨rfl, rfl, ⟨rfl, rfl⟩, .inr ⟨_, rfl⟩⟩
  · rcases rdcTurn_cases { s with inputs := xs } with ⟨ch, n, _, _, hturn⟩ | ⟨_, hturn⟩ <;> rw [hturn]
    · exact .inr ⟨rfl, rfl, ⟨rfl, rfl⟩, .inr ⟨_, rfl⟩⟩
    · exact .inr ⟨rfl, rfl, ⟨rfl, rfl⟩, .inl rfl⟩

theorem step_cfg {s t : State} (h : step s = .next t) : t.cfg = s.cfg := by
  rcases step_exec_or_port h with ⟨i, xs, hexec⟩ | ⟨hcfg, _⟩
  · exact exec_cfg (s := { s with inputs := xs }) hexec
  · exact hcfg

theorem step_responses {s t : State} (h : step s = .next t) :
    t.responses = s.responses ∨ ∃ r, t.responses = s.responses ++ [r] := by
  rcases step_exec_or_port h with ⟨i, xs, hexec⟩ | ⟨_, _, _, hresp⟩
  · exact exec_responses (s := { s with inputs := xs }) hexec
  · exact hresp

/-! ### The sequencer (40_transmitter.md R90, R91) -/

/-- What stays of a running transmitter between two phases: R35's timer and phase aside, its buffers, index, period and
driven outputs. -/
structure Tx.Loaded (t : Tx) : Prop where
  sameLength : (t.buf.get .secondary).length = (t.buf.get .primary).length
  inRange    : t.k < (t.buf.get .primary).length
  periodSet  : t.period ≠ 0
  driven     : t.oe = true

theorem Tx.Running.loaded {cfg : Config} {t : Tx} (h : t.Running cfg) : t.Loaded :=
  ⟨h.sameLength, h.inRange, h.periodSet, h.driven⟩

/-- EnterSetup at the transmitter's own sample index leaves a running transmitter. -/
theorem enterSetup_running {cfg : Config} (hcfg : cfg.Legal) {i : BitVec 3} {t u : Tx} (ht : t.Loaded)
    (h : enterSetup cfg t.k i t = some u) : u.Running cfg := by
  obtain ⟨b0, b1, hb0, hb1, rfl⟩ := enterSetup_some h
  obtain ⟨_, _, hsetup, _⟩ := hcfg
  exact {
    sameLength := ht.sameLength, inRange := ht.inRange, periodSet := ht.periodSet, driven := ht.driven
    timerLow := hsetup, timerHigh := Nat.le_refl _, strobe := rfl
    gapBit := fun hgap => by cases hgap
    data := fun c => by cases c with
      | primary => exact ⟨b0, hb0, rfl⟩
      | secondary => exact ⟨b1, hb1, rfl⟩ }

/-- Where a phase of a running transmitter has run out, the next one leaves it running: SETUP to PULSE to DEAD, then SETUP
of the next bit or, after bit 7, GAP and SETUP of the next sample. -/
theorem nextPhase_running {cfg : Config} (hcfg : cfg.Legal) {t u : Tx} (ht : t.Running cfg)
    (h : nextPhase cfg { t with tmr := 0 } = some u) : u.Running cfg := by
  have ⟨_, _, _, hpulse, hdead, hms⟩ := hcfg
  unfold nextPhase at h
  split at h
  · cases h
    exact { ht with timerLow := hpulse, timerHigh := Nat.le_refl _, strobe := rfl, gapBit := fun hgap => by cases hgap }
  · cases h
    exact { ht with timerLow := hdead, timerHigh := Nat.le_refl _, strobe := rfl, gapBit := fun hgap => by cases hgap }
  · rename_i hph
    have hdeadPhase : t.ph = .dead := hph
    split at h
    · exact enterSetup_running hcfg { ht.loaded with } h
    · rename_i hlast
      cases h
      have hperiod : 1 ≤ t.period.toNat := Nat.one_le_iff_ne_zero.mpr fun h0 => ht.periodSet (BitVec.eq_of_toNat_eq h0)
      exact { ht with
        timerLow := Nat.mul_pos hperiod hms, timerHigh := Nat.le_refl _
        strobe := by simpa [hdeadPhase] using ht.strobe
        gapBit := fun _ => by
          have hi : ¬ t.i.toNat < 7 := hlast
          show t.i = 7
          bv_omega }
  · have hsample : Tx.Loaded { t with tmr := 0, k := (t.k + 1) % (t.buf.get .primary).length } :=
      { ht.loaded with inRange := Nat.mod_lt _ (Nat.zero_lt_of_lt ht.inRange) }
    exact enterSetup_running hcfg hsample h

/-! ### The transmitter after any step -/

theorem Tx.Legal.of_running {cfg : Config} {t : Tx} (hasTx : cfg.hasTx = true) (run : t.run = true)
    (fit : t.BuffersFit cfg.txDepth) (running : t.Running cfg) : t.Legal cfg :=
  ⟨fit, fun _ => running, fun h => by simp [run] at h, fun h => by simp [hasTx] at h⟩

theorem Tx.Legal.of_resting {cfg : Config} {t : Tx} (hasTx : cfg.hasTx = true) (run : t.run = false)
    (fit : t.BuffersFit cfg.txDepth) (resting : t.Resting) : t.Legal cfg :=
  ⟨fit, fun h => by simp [run] at h, fun _ => resting, fun h => by simp [hasTx] at h⟩

theorem buffersFit_of_buf_eq {depth : Nat} {t u : Tx} (h : u.buf = t.buf) (ht : t.BuffersFit depth) :
    u.BuffersFit depth := by
  rw [Tx.BuffersFit, h]
  exact ht

theorem buffersFit_of_empty {depth : Nat} {t : Tx} (h : t.buf = Both.same []) : t.BuffersFit depth := by
  intro c
  simp [h]

/-- A byte loaded into a buffer that is not full still fits. -/
theorem txAppend_buffersFit {depth : Nat} {c : Channel} {b : Byte} {t : Tx} (ht : t.BuffersFit depth)
    (room : (t.buf.get c).length ≠ depth) : (txAppend c b t).BuffersFit depth := by
  intro d
  by_cases hd : d = c
  · subst hd
    have hfit := ht d
    rw [txAppend_buf, Both.get_set_same, List.length_append, List.length_singleton]
    omega
  · rw [txAppend_buf, Both.get_set_of_ne _ _ hd]
    exact ht d

theorem exec_tx_legal {i : Instr} {s t : State} (hcfg : s.cfg.Legal) (hs : s.tx.Legal s.cfg)
    (h : exec i s = .next t) : t.tx.Legal s.cfg := by
  cases exec_effect h with
  | nothing | responds | delivers | pends | selects | setsDin | setsStrobe | cancels => exact hs
  | loads c b _ hasTx idle room =>
    exact .of_resting hasTx idle (txAppend_buffersFit hs.buffersFit room) { hs.resting idle with }
  | setsPeriod p _ hasTx idle positive =>
    exact .of_resting hasTx idle hs.buffersFit { hs.resting idle with }
  | starts u _ hasTx idle same nonempty period setup =>
    rw [propagateIfLooped_tx]
    have hu : u.Running s.cfg :=
      enterSetup_running (t := { s.tx with run := true, oe := true, k := 0 }) hcfg
        ⟨same, Nat.pos_of_ne_zero nonempty, period, rfl⟩ setup
    obtain ⟨_, _, _, _, rfl⟩ := enterSetup_some setup
    exact .of_running hasTx rfl hs.buffersFit hu
  | stops _ hasTx => exact .of_resting hasTx rfl (buffersFit_of_empty rfl) ⟨rfl, rfl, rfl, rfl, rfl, rfl, rfl⟩
  | resets =>
    by_cases hasTx : s.cfg.hasTx = true
    · simp only [hasTx, if_true]
      exact .of_resting hasTx rfl (buffersFit_of_empty rfl) ⟨rfl, rfl, rfl, rfl, rfl, rfl, rfl⟩
    · simpa only [if_neg hasTx] using hs
  | counts _ hasTx running more =>
    have hr := hs.running running
    exact .of_running hasTx running hs.buffersFit { hr with
      timerLow := Nat.le_sub_of_add_le more, timerHigh := (Nat.sub_le _ _).trans hr.timerHigh }
  | enters u _ hasTx running last next =>
    rw [propagateIfLooped_tx]
    obtain ⟨hrun, hbuf, _⟩ := nextPhase_keeps next
    exact .of_running hasTx (hrun.trans running) (buffersFit_of_buf_eq hbuf hs.buffersFit)
      (nextPhase_running hcfg (hs.running running) next)

theorem step_tx_legal {s t : State} (hcfg : s.cfg.Legal) (hs : s.tx.Legal s.cfg) (h : step s = .next t) :
    t.tx.Legal s.cfg := by
  rcases step_exec_or_port h with ⟨i, xs, hexec⟩ | ⟨_, htx, _⟩
  · exact exec_tx_legal (s := { s with inputs := xs }) hcfg hs hexec
  · rw [htx]
    exact hs

/-! ### The looped lines after any step (40_transmitter.md R96) -/

theorem linesLooped_of_same {s t : State} (hcfg : t.cfg = s.cfg) (hdout : t.tx.dout = s.tx.dout)
    (hstrobe : t.tx.strobeOut = s.tx.strobeOut) (hoe : t.tx.oe = s.tx.oe) (hdin : t.rx.din = s.rx.din)
    (hin : t.rx.strobeIn = s.rx.strobeIn) (hs : s.LinesLooped) : t.LinesLooped := by
  rw [State.LinesLooped, hcfg, hdout, hstrobe, hoe, hdin, hin]
  exact hs

theorem linesLooped_of_not_loopback {s : State} (h : s.cfg.loopback = false) : s.LinesLooped :=
  fun hloop => by simp [h] at hloop

theorem linesLooped_of_released {s : State} (h : s.tx.oe = false) : s.LinesLooped :=
  fun _ hoe => by simp [h] at hoe

theorem exec_linesLooped {i : Instr} {s t : State} (hs : s.LinesLooped) (h : exec i s = .next t) :
    t.LinesLooped := by
  cases exec_effect h with
  | starts => exact propagateIfLooped_linesLooped _
  | enters => exact propagateIfLooped_linesLooped _
  | stops => exact linesLooped_of_released rfl
  | setsDin c v _ notLooped => exact linesLooped_of_not_loopback notLooped
  | setsStrobe v _ notLooped => exact linesLooped_of_not_loopback notLooped
  | resets =>
    by_cases hasTx : s.cfg.hasTx = true
    · exact linesLooped_of_released (by simp [hasTx])
    · exact linesLooped_of_same (s := s) rfl (by simp [hasTx]) (by simp [hasTx]) (by simp [hasTx]) rfl rfl hs
  | _ => exact linesLooped_of_same rfl rfl rfl rfl rfl rfl hs

theorem step_linesLooped {s t : State} (hs : s.LinesLooped) (h : step s = .next t) : t.LinesLooped := by
  rcases step_exec_or_port h with ⟨i, xs, hexec⟩ | ⟨hcfg, htx, ⟨hdin, hin⟩, _⟩
  · exact exec_linesLooped (s := { s with inputs := xs }) hs hexec
  · exact linesLooped_of_same hcfg (by rw [htx]) (by rw [htx]) (by rw [htx]) hdin hin hs

/-! ### The obligations -/

/-- Settles O44: the receiver's clauses by what a step leaves in the receiver, the transmitter's and the lines' by the
effects of the instructions. -/
theorem stepKeepsTheInvariant : Obligations.StepKeepsTheInvariant := by
  intro s t hs h
  have hcfg := step_cfg h
  have hrx := step_rx h
  exact {
    cfgLegal := hcfg ▸ hs.cfgLegal
    accClear := hrx.accClear hs.accClear
    posEqual := hrx.posEqual hs.posEqual
    posCounts := hrx.posCounts hs.posCounts
    queuesFit := hcfg ▸ hrx.queuesFit hs.queuesFit
    portLegal := hrx.portLegal hs.portLegal
    txLegal := hcfg ▸ step_tx_legal hs.cfgLegal hs.txLegal h
    linesLooped := step_linesLooped hs.linesLooped h }

/-- Settles O40: EDGE writes at the position and moves it past the bit it wrote. -/
theorem accumulatorStaysClearAbovePos : Obligations.AccumulatorStaysClearAbovePos :=
  ⟨fun _ => powerOn_accClear, fun _ _ hs h => (step_rx h).accClear hs, fun _ _ hs hpos => accClear_eq_zero hs hpos⟩

/-- Settles O41: EDGE advances both positions by one, and nothing but EDGE and RESET writes them. -/
theorem positionsStayEqual : Obligations.PositionsStayEqual :=
  ⟨fun _ => rfl, fun _ _ hs h => (step_rx h).posEqual hs⟩

/-- Settles O43: a step appends only where there is room. -/
theorem queuesStayWithinCapacity : Obligations.QueuesStayWithinCapacity :=
  ⟨fun cfg => powerOn_queuesFit cfg.cap, fun _ _ hs h => step_cfg h ▸ (step_rx h).queuesFit hs⟩

/-- Settles O47, by the effects of the instructions and of the port. -/
theorem stepKeepsParametersAndDeliversAtMostOneResponse :
    Obligations.StepKeepsParametersAndDeliversAtMostOneResponse :=
  fun _ _ h => ⟨step_cfg h, step_responses h⟩

/-- DAV[c] says that Q[c] is not empty (10_state.md R27). -/
theorem dav_iff (s : State) (c : Channel) : s.dav c = true ↔ 0 < (s.rx.q.get c).length := by
  simp [State.dav, State.isEmpty, List.length_pos_iff]

/-- COMPLETE is enabled where a READ is pending on a channel with DAV (42_read_interface.md R113). -/
theorem completeEnabled_iff_dav (s : State) :
    completeEnabled s = true ↔ ∃ ch n, s.rx.port = .pending ch n ∧ s.dav ch = true := by
  cases hp : s.rx.port with
  | idle => simp [completeEnabled, hp]
  | pending ch n => simp [completeEnabled, hp, dav_iff]

/-- Settles O57: the derived signals are tests of the length. -/
theorem davFollowsTheQueue : Obligations.DavFollowsTheQueue :=
  ⟨fun s c => ⟨beq_iff_eq, beq_iff_eq, by simp [State.dav]⟩, completeEnabled_iff_dav⟩

end Sys2Proof.Machine

/-! ## Proofs: the queues are first in, first out (20_memory.md R54)

The queue after each operation that writes it: the strobe, the loopback wiring and the dequeue. Then what an instruction
and a step do to a queue, and the obligation. -/

namespace Sys2Proof.Machine

open Sys2Proof

/-! ### The operations that write a queue -/

/-- SET_STROBE leaves a queue alone or appends one byte: the one EDGE it may run. -/
theorem setStrobe_q_cases (cap : Nat) (v : Level) (r : Rx) (c : Channel) :
    (setStrobe cap v r).q.get c = r.q.get c ∨ ∃ b, (setStrobe cap v r).q.get c = r.q.get c ++ [b] := by
  rcases setStrobe_cases cap v r with h | h <;> rw [h]
  · exact (edge_q cap r c).imp_right And.right
  · exact .inl rfl

/-- A strobe that goes low, or stays low, runs no EDGE (41_edge_decoder.md R101). -/
@[simp] theorem setStrobe_low_q (cap : Nat) (r : Rx) : (setStrobe cap false r).q = r.q := by
  rw [setStrobe_of_no_rise (by simp)]

theorem propagateIfLooped_q_cases (s : State) (c : Channel) :
    (propagateIfLooped s).rx.q.get c = s.rx.q.get c ∨
    ∃ b, (propagateIfLooped s).rx.q.get c = s.rx.q.get c ++ [b] := by
  rw [propagateIfLooped_eq]
  dsimp only
  split
  · rw [propagate_eq]
    exact setStrobe_q_cases _ _ { s.rx with din := s.tx.dout } c
  · exact .inl rfl

/-- While the transmitter's strobe is low the wiring completes no byte. -/
theorem propagateIfLooped_q_of_low {s : State} (low : s.tx.strobeOut = false) :
    (propagateIfLooped s).rx.q = s.rx.q := by
  rw [propagateIfLooped_eq]
  dsimp only
  split
  · rw [propagate_eq, low, setStrobe_low_q]
  · rfl

theorem readLength_le (ch : Channel) (n : Arg) (r : Rx) : readLength ch n r ≤ (r.q.get ch).length :=
  Nat.min_le_right _ _

/-- A read of at least one byte from a queue with data takes at least one. -/
theorem readLength_pos {ch : Channel} {n : Arg} {r : Rx} (positive : n ≠ 0) (data : r.q.get ch ≠ []) :
    1 ≤ readLength ch n r :=
  have hn : 0 < n.toNat := Nat.pos_of_ne_zero fun h => positive (BitVec.eq_of_toNat_eq h)
  Nat.le_min.mpr ⟨hn, List.length_pos_iff.mpr data⟩

/-! ### What an instruction and a step do to a queue -/

/-- The ways one step takes the queue of channel c: from the queues q and the record of responses xs to the receiver y and
the record ys. -/
inductive QueueMove (c : Channel) (q : Both (List Byte)) (xs : List Response) (y : Rx) (ys : List Response) : Prop where
  | unchanged (same : y.q.get c = q.get c)
  | appends (b : Byte) (back : y.q.get c = q.get c ++ [b]) (silent : ys = xs)
  | delivers (k : Nat) (positive : 1 ≤ k) (available : k ≤ (q.get c).length) (rest : y.q.get c = (q.get c).drop k)
      (response : ys = xs ++ [⟨.ok, BitVec.ofNat 32 k, (q.get c).take k⟩])
  | resets (empty : y.q = ⟨[], []⟩) (edgeCnt : y.edgeCnt = 0) (idle : y.port = .idle) (silent : ys = xs)

/-- A silent operation that leaves the queue alone or appends one byte makes one of the moves. -/
theorem QueueMove.of_same_or_append {c : Channel} {q : Both (List Byte)} {xs ys : List Response} {y : Rx}
    (h : y.q.get c = q.get c ∨ ∃ b, y.q.get c = q.get c ++ [b]) (silent : ys = xs) : QueueMove c q xs y ys := by
  rcases h with same | ⟨b, back⟩
  · exact .unchanged same
  · exact .appends b back silent

/-- The dequeue takes from the front of its own channel's queue and leaves the other channel's alone. -/
theorem deliver_queueMove {ch : Channel} {n : Arg} {s : State} (positive : n ≠ 0) (data : s.rx.q.get ch ≠ [])
    (c : Channel) : QueueMove c s.rx.q s.responses (deliver ch n s).rx (deliver ch n s).responses := by
  rw [deliver_eq]
  by_cases hc : c = ch
  · subst hc
    exact .delivers _ (readLength_pos positive data) (readLength_le c n s.rx) (Both.get_set_same ..) rfl
  · exact .unchanged (Both.get_set_of_ne _ _ hc)

theorem exec_queueMove {i : Instr} {s t : State} (h : exec i s = .next t) (c : Channel) :
    QueueMove c s.rx.q s.responses t.rx t.responses := by
  cases exec_effect h with
  | delivers n _ positive data => exact deliver_queueMove positive data c
  | setsStrobe v => exact .of_same_or_append (setStrobe_q_cases _ v s.rx c) rfl
  | starts u _ _ _ _ _ _ setup =>
    -- TX_START does respond, so it must not complete a byte too: it enters SETUP, where the strobe is low.
    obtain ⟨_, _, _, _, rfl⟩ := enterSetup_some setup
    exact .unchanged (congrArg (·.get c) (propagateIfLooped_q_of_low rfl))
  | enters u => exact .of_same_or_append (propagateIfLooped_q_cases _ c) (propagateIfLooped_responses _)
  | resets => exact .resets rfl rfl rfl rfl
  | nothing | responds | pends | selects | loads | setsPeriod | stops | setsDin | cancels | counts =>
    exact .unchanged rfl

/-- COMPLETE is the one step that needs the pending READ to ask for a byte; a READ command checks its own operand. -/
theorem step_queueMove {s t : State} (legal : s.rx.PortLegal) (h : step s = .next t) (c : Channel) :
    QueueMove c s.rx.q s.responses t.rx t.responses := by
  rcases step_next h with ⟨i, xs, _, hexec⟩ | ⟨_, xs, rfl⟩ | ⟨xs, rfl⟩
  · exact exec_queueMove (s := { s with inputs := xs }) hexec c
  · exact .unchanged rfl
  · rcases rdcTurn_cases { s with inputs := xs } with ⟨ch, n, pending, data, hturn⟩ | ⟨_, hturn⟩ <;> rw [hturn]
    · exact deliver_queueMove (s := { s with rx := { s.rx with port := .idle }, inputs := xs })
        (legal ch n pending) data c
    · exact .unchanged rfl

/-! ### The obligation -/

/-- Settles O51, by the moves of a queue over a step. -/
theorem queuesAreFirstInFirstOut : Obligations.QueuesAreFirstInFirstOut := by
  intro s t c legal h
  cases step_queueMove legal h c with
  | unchanged same => exact .inl same
  | appends b back silent => exact .inr (.inl ⟨b, back, silent⟩)
  | delivers k positive available rest response =>
    exact .inr (.inr (.inl ⟨k, positive, available, rest, response⟩))
  | resets empty edgeCnt idle silent => exact .inr (.inr (.inr ⟨empty, edgeCnt, idle, silent⟩))

end Sys2Proof.Machine

/-! ## Proofs: the decoder and the encoder are each other's inverse (30_encoding.md)

In the order of R67: the fields of a word as numbers, the port's checks as one statement, the opcode map against the
encoder's rows; the same for event words; then the equivalence that both directions of the encoding follow from. -/

namespace Sys2Proof

/-! ### The fields of a command word as numbers (30_encoding.md R58) -/

theorem fieldOp_toNat (w : Word) : (fieldOp w).toNat = w.toNat / 2 ^ 28 := by
  have := w.isLt
  simp only [fieldOp, BitVec.extractLsb'_toNat, Nat.shiftRight_eq_div_pow]
  omega

theorem fieldM_eq_true_iff (w : Word) : fieldM w = true ↔ w.toNat / 2 ^ 27 % 2 = 1 := by
  simp [fieldM, BitVec.getLsbD, Nat.testBit_eq_decide_div_mod_eq]

theorem fieldZ_toNat (w : Word) : (fieldZ w).toNat = w.toNat / 2 ^ 16 % 2 ^ 11 := by
  simp [fieldZ, Nat.shiftRight_eq_div_pow]

theorem fieldArg_toNat (w : Word) : (fieldArg w).toNat = w.toNat % 2 ^ 16 := by
  simp [fieldArg]

theorem argHi_toNat (arg : Arg) : (argHi arg).toNat = arg.toNat / 2 ^ 8 % 2 ^ 8 := by
  simp [argHi, Nat.shiftRight_eq_div_pow]

@[simp] theorem byteArg_toNat (b : Byte) : (byteArg b).toNat = b.toNat := by
  have := b.isLt
  simp only [byteArg, BitVec.toNat_setWidth]
  omega

theorem isReservedOp_of_toNat : ∀ op : BitVec 4, op.toNat ∈ [0x0, 0x7, 0xD, 0xF] → isReservedOp op = true := by
  decide

theorem isTxOp_of_toNat : ∀ op : BitVec 4, op.toNat ∈ [0x8, 0x9, 0xA, 0xB, 0xC, 0xE] → isTxOp op = true := by
  decide

theorem isNoArgOp_of_toNat : ∀ op : BitVec 4, op.toNat ∈ [0x3, 0x5, 0xB, 0xC] → isNoArgOp op = true := by
  decide

theorem isByteOp_of_toNat : ∀ op : BitVec 4, op.toNat ∈ [0x8, 0x9] → isByteOp op = true := by
  decide

/-- The encoder's word is "the sum OP<<28 | M<<27 | ARG" (30_encoding.md R76). -/
theorem commandWord_eq_sum (op : BitVec 4) (m : Bool) (arg : Arg) :
    commandWord op m arg = BitVec.ofNat 32 (op.toNat * 2 ^ 28 + m.toNat * 2 ^ 27 + arg.toNat) := by
  have hop := op.isLt
  have harg := arg.isLt
  have hm : m.toNat ≤ 1 := Bool.toNat_le m
  generalize hw : BitVec.ofNat 32 (op.toNat * 2 ^ 28 + m.toNat * 2 ^ 27 + arg.toNat) = w
  have hval : w.toNat = op.toNat * 2 ^ 28 + m.toNat * 2 ^ 27 + arg.toNat := by
    rw [← hw, BitVec.toNat_ofNat, Nat.mod_eq_of_lt (by omega)]
  have hZ : fieldZ w = 0 := BitVec.eq_of_toNat_eq (by rw [fieldZ_toNat, hval]; show _ = 0; omega)
  have hOp : fieldOp w = op := BitVec.eq_of_toNat_eq (by rw [fieldOp_toNat, hval]; omega)
  have hArg : fieldArg w = arg := BitVec.eq_of_toNat_eq (by rw [fieldArg_toNat, hval]; omega)
  have hM : fieldM w = m := by
    rw [Bool.eq_iff_iff, fieldM_eq_true_iff, hval, ← Bool.toNat_eq_one]
    omega
  rw [← commandWord_fields hZ, hOp, hM, hArg]

/-! ### The port's checks (30_encoding.md R67) -/

/-- The checks of M and ARG, passed. -/
structure OperandsFit (op : BitVec 4) (m : Bool) (arg : Arg) : Prop where
  mode  : m = true → op = 0x1#4                  -- R70
  noArg : isNoArgOp op = true → arg = 0          -- R71
  byte  : isByteOp op = true → argHi arg = 0     -- R64

/-- The checks of a command word, all passed. -/
structure Admitted (hasTx : Bool) (w : Word) : Prop where
  known    : isReservedOp (fieldOp w) = false                       -- R68
  present  : isTxOp (fieldOp w) = true → hasTx = true               -- R72
  zero     : fieldZ w = 0                                           -- R69
  operands : OperandsFit (fieldOp w) (fieldM w) (fieldArg w)

/-- A check that rejects stands in the way of every instruction. -/
theorem check_eq_ok_iff {c : Prop} [Decidable c] {r : Reject} {e : Except Reject Instr} {i : Instr} :
    (if c then .error r else e) = .ok i ↔ ¬ c ∧ e = .ok i := by
  split <;> simp [*]

/-- A command word decodes exactly where it passes the checks, and then by the opcode map. -/
theorem decodeCommand_eq_ok_iff {hasTx : Bool} {w : Word} {i : Instr} :
    decodeCommand hasTx w = .ok i ↔
      Admitted hasTx w ∧ commandOf (fieldOp w) (fieldM w) (fieldArg w) = some i := by
  simp only [decodeCommand, check_eq_ok_iff]
  constructor
  · rintro ⟨known, present, zero, mode, noArg, byte, map⟩
    refine ⟨⟨by simpa using known, by simpa using present, by simpa using zero,
      ⟨by simpa using mode, by simpa using noArg, by simpa using byte⟩⟩, ?_⟩
    split at map
    · cases map; assumption
    · cases map
  · rintro ⟨⟨known, present, zero, mode, noArg, byte⟩, map⟩
    exact ⟨by simp [known], by simpa using present, by simp [zero], by simpa using mode,
      by simpa using noArg, by simpa using byte, by rw [map]⟩

/-! ### The opcode map and the rows of the encoder (30_encoding.md R65) -/

/-- The opcode map as a list of rows: which instruction an opcode and M give the operand `arg` (30_encoding.md R65). -/
inductive OpcodeRow (arg : Arg) : BitVec 4 → Bool → Instr → Prop where
  | read : OpcodeRow arg 0x1#4 false (.read arg)
  | readNb : OpcodeRow arg 0x1#4 true (.readNb arg)
  | select (m : Bool) : OpcodeRow arg 0x2#4 m (.select arg)
  | query (m : Bool) : OpcodeRow arg 0x3#4 m .query
  | getCount (m : Bool) : OpcodeRow arg 0x4#4 m (.getCount arg)
  | getEdges (m : Bool) : OpcodeRow arg 0x5#4 m .getEdges
  | getDrops (m : Bool) : OpcodeRow arg 0x6#4 m (.getDrops arg)
  | txLoadP (m : Bool) : OpcodeRow arg 0x8#4 m (.txLoadP (argLo arg))
  | txLoadS (m : Bool) : OpcodeRow arg 0x9#4 m (.txLoadS (argLo arg))
  | txPeriod (m : Bool) : OpcodeRow arg 0xA#4 m (.txPeriod arg)
  | txStart (m : Bool) : OpcodeRow arg 0xB#4 m .txStart
  | txStop (m : Bool) : OpcodeRow arg 0xC#4 m .txStop
  | txQuery (m : Bool) : OpcodeRow arg 0xE#4 m (.txQuery arg)

theorem opcode_cases : ∀ op : BitVec 4, op = 0x0#4 ∨ op = 0x1#4 ∨ op = 0x2#4 ∨ op = 0x3#4 ∨ op = 0x4#4 ∨
    op = 0x5#4 ∨ op = 0x6#4 ∨ op = 0x7#4 ∨ op = 0x8#4 ∨ op = 0x9#4 ∨ op = 0xA#4 ∨ op = 0xB#4 ∨ op = 0xC#4 ∨
    op = 0xD#4 ∨ op = 0xE#4 ∨ op = 0xF#4 := by decide

theorem commandOf_eq_some_iff {op : BitVec 4} {m : Bool} {arg : Arg} {i : Instr} :
    commandOf op m arg = some i ↔ OpcodeRow arg op m i := by
  constructor
  · intro h
    rcases opcode_cases op with rfl | rfl | rfl | rfl | rfl | rfl | rfl | rfl | rfl | rfl | rfl | rfl | rfl | rfl |
      rfl | rfl
    -- READ is the one opcode at which M chooses the instruction; the reserved opcodes choose none.
    case inr.inl => cases m <;> cases h <;> constructor
    all_goals cases h
    all_goals constructor
  · intro row
    cases row <;> rfl

/-- The transmitter opcodes are those of the transmitter commands (30_encoding.md R72, 40_transmitter.md R83). -/
theorem OpcodeRow.isTxOp_eq {op : BitVec 4} {m : Bool} {arg : Arg} {i : Instr} (row : OpcodeRow arg op m i) :
    isTxOp op = i.needsTx := by
  cases row <;> rfl

theorem OpcodeRow.isReservedOp_eq {op : BitVec 4} {m : Bool} {arg : Arg} {i : Instr} (row : OpcodeRow arg op m i) :
    isReservedOp op = false := by
  cases row <;> rfl

theorem wellFormed_iff {hasTx : Bool} {i : Instr} :
    i.wellFormed hasTx = true ↔ (i.needsTx = true → hasTx = true) := by
  cases hasTx <;> simp [Instr.wellFormed]

/-- An operand that may have any value passes. -/
theorem OperandsFit.of_free {op : BitVec 4} {arg : Arg} (hasArg : isNoArgOp op = false) (wide : isByteOp op = false) :
    OperandsFit op false arg :=
  ⟨nofun, fun h => absurd (hasArg.symm.trans h) nofun, fun h => absurd (wide.symm.trans h) nofun⟩

theorem OperandsFit.of_zero (op : BitVec 4) : OperandsFit op false 0 := ⟨nofun, fun _ => rfl, fun _ => rfl⟩

theorem OperandsFit.of_byte {op : BitVec 4} (hasArg : isNoArgOp op = false) (b : Byte) :
    OperandsFit op false (byteArg b) :=
  ⟨nofun, fun h => absurd (hasArg.symm.trans h) nofun, fun _ => argHi_byteArg b⟩

/-- READ.NB is READ with M = 1. -/
theorem OperandsFit.of_readNb (n : Arg) : OperandsFit 0x1#4 true n := ⟨fun _ => rfl, nofun, nofun⟩

/-- The encoder writes a row back to the word it was read from. -/
theorem OpcodeRow.encode_eq {op : BitVec 4} {m : Bool} {arg : Arg} {i : Instr} (row : OpcodeRow arg op m i)
    (fit : OperandsFit op m arg) : encode i = .command (commandWord op m arg) := by
  obtain ⟨mode, noArg, byte⟩ := fit
  cases row
  case read | readNb => rfl
  all_goals obtain rfl : m = false := Bool.eq_false_iff.mpr fun h => absurd (mode h) (by decide)
  case query | getEdges | txStart | txStop => rw [noArg rfl]; rfl
  case txLoadP | txLoadS => rw [encode, byteArg_argLo (byte rfl)]
  all_goals rfl

/-- The word of a command is made from its row of the opcode map, and the checks of M and ARG pass. -/
theorem encode_command {i : Instr} {w : Word} (h : encode i = .command w) :
    ∃ op m arg, w = commandWord op m arg ∧ OpcodeRow arg op m i ∧ OperandsFit op m arg := by
  cases i with
  | readNb n => cases h; exact ⟨_, _, _, rfl, .readNb, .of_readNb n⟩
  | txLoadP b =>
    cases h
    exact ⟨_, _, byteArg b, rfl, by simpa using OpcodeRow.txLoadP (arg := byteArg b) false, .of_byte rfl b⟩
  | txLoadS b =>
    cases h
    exact ⟨_, _, byteArg b, rfl, by simpa using OpcodeRow.txLoadS (arg := byteArg b) false, .of_byte rfl b⟩
  | query | getEdges | txStart | txStop => cases h; exact ⟨_, _, _, rfl, by constructor, .of_zero _⟩
  | read | select | getCount | getDrops | txPeriod | txQuery =>
    cases h
    exact ⟨_, _, _, rfl, by constructor, .of_free rfl rfl⟩
  | setDin | setStrobe | cancel | reset | tick => cases h

/-- A command word decodes to the commands of the block whose encoding it is. -/
theorem decodeCommand_eq_ok_iff_encode {hasTx : Bool} {w : Word} {i : Instr} :
    decodeCommand hasTx w = .ok i ↔ encode i = .command w ∧ i.wellFormed hasTx = true := by
  rw [decodeCommand_eq_ok_iff, commandOf_eq_some_iff, wellFormed_iff]
  constructor
  · rintro ⟨checks, row⟩
    have hword := row.encode_eq checks.operands
    rw [commandWord_fields checks.zero] at hword
    exact ⟨hword, row.isTxOp_eq ▸ checks.present⟩
  · rintro ⟨hword, present⟩
    obtain ⟨op, m, arg, rfl, row, fit⟩ := encode_command hword
    rw [← row.isTxOp_eq] at present
    have checks : Admitted hasTx (commandWord op m arg) :=
      ⟨by simpa using row.isReservedOp_eq, by simpa using present, by simp, by simpa using fit⟩
    exact ⟨checks, by simpa using row⟩

/-! ### Event words (30_encoding.md R61) -/

theorem eventWord_fields : ∀ w : BitVec 8, w.extractLsb' 2 2 = 0 →
    eventWord (w.extractLsb' 4 4) (w.getLsbD 1) (w.getLsbD 0) = w := by decide

theorem bitOfChannel_channelOfBit (b : Bool) : bitOfChannel (channelOfBit b) = b := by cases b <;> rfl

/-- An event word decodes to the event whose encoding it is. -/
theorem decodeEvent_eq_ok_iff_encode {w : BitVec 8} {i : Instr} : decodeEvent w = .ok i ↔ encode i = .event w := by
  constructor
  · intro h
    simp only [decodeEvent, check_eq_ok_iff, ne_eq, not_not] at h
    obtain ⟨hz, h⟩ := h
    rw [← eventWord_fields w hz]
    generalize w.extractLsb' 4 4 = evt at h ⊢
    generalize w.getLsbD 1 = ch at h ⊢
    generalize w.getLsbD 0 = v at h ⊢
    repeat' split at h
    all_goals cases h
    all_goals simp_all [encode, bitOfChannel_channelOfBit]
  · intro h
    cases i with
    | setDin ch v => cases h; cases ch <;> cases v <;> rfl
    | setStrobe v => cases h; cases v <;> rfl
    | cancel | reset | tick => cases h; rfl
    | _ => cases h

/-- The transmitter has no event of its own: TICK is accepted without it (40_transmitter.md R91). -/
theorem wellFormed_of_event {hasTx : Bool} {i : Instr} {w : BitVec 8} (h : encode i = .event w) :
    i.wellFormed hasTx = true := by
  have noTx : i.needsTx = false := by cases i <;> first | rfl | cases h
  simp [wellFormed_iff, noTx]

theorem encode_ne_rdc (i : Instr) : encode i ≠ .rdc := by
  cases i <;> exact nofun

/-- The decoder and the encoder are each other's inverse, on the words that decode and the instructions a block has. -/
theorem decode_eq_ok_iff {hasTx : Bool} {x : Input} {i : Instr} :
    decode hasTx x = .ok i ↔ encode i = x ∧ i.wellFormed hasTx = true := by
  cases x with
  | command w => exact decodeCommand_eq_ok_iff_encode
  | event w => exact decodeEvent_eq_ok_iff_encode.trans ⟨fun h => ⟨h, wellFormed_of_event h⟩, And.left⟩
  | rdc => exact ⟨nofun, fun h => absurd h.1 (encode_ne_rdc i)⟩

/-! ### The obligations on words -/

/-- Settles O2: the equivalence, from the instruction to its word. -/
theorem decodeInvertsEncode : Obligations.DecodeInvertsEncode :=
  fun _ _ present => decode_eq_ok_iff.mpr ⟨rfl, present⟩

/-- Settles O3: the equivalence, from the word to its instruction. -/
theorem encodeInvertsDecode : Obligations.EncodeInvertsDecode :=
  fun _ _ _ h => decode_eq_ok_iff.mp h

/-- Settles O1: each of the words is the encoding of its instruction. -/
theorem wordsOfTheSpecDecode : Obligations.WordsOfTheSpecDecode :=
  ⟨decodeInvertsEncode true (.read 2) rfl, decodeInvertsEncode true (.readNb 4) rfl,
    decodeInvertsEncode true (.select 1) rfl, decodeInvertsEncode true (.txLoadP 0xB2) rfl,
    decodeInvertsEncode true (.txPeriod 65535) rfl, decodeInvertsEncode true (.setDin .secondary false) rfl,
    decodeInvertsEncode true (.setStrobe true) rfl, decodeInvertsEncode true .tick rfl⟩

/-- The number of a command's word decodes to the command. -/
theorem decodeCommand_of_sum {hasTx m : Bool} {op : BitVec 4} {arg : Arg} {i : Instr} {n : Nat}
    (word : encode i = .command (commandWord op m arg)) (present : i.wellFormed hasTx = true)
    (sum : op.toNat * 2 ^ 28 + m.toNat * 2 ^ 27 + arg.toNat = n) : decodeCommand hasTx (BitVec.ofNat 32 n) = .ok i := by
  rw [← sum, ← commandWord_eq_sum]
  exact decodeCommand_eq_ok_iff_encode.mpr ⟨word, present⟩

/-- Settles O6: each number is the word of its command. -/
theorem everyOtherCommandWordFollowsTheOpcodeMap : Obligations.EveryOtherCommandWordFollowsTheOpcodeMap := by
  intro arg b hasTx
  have everyBlock {i : Instr} (h : i.needsTx = false) : i.wellFormed hasTx = true := by simp [wellFormed_iff, h]
  refine ⟨decodeCommand_of_sum (i := .read arg) rfl (everyBlock rfl) ?_,
    decodeCommand_of_sum (i := .readNb arg) rfl (everyBlock rfl) ?_,
    decodeCommand_of_sum (i := .select arg) rfl (everyBlock rfl) ?_,
    decodeCommand_of_sum (i := .query) rfl (everyBlock rfl) ?_,
    decodeCommand_of_sum (i := .getCount arg) rfl (everyBlock rfl) ?_,
    decodeCommand_of_sum (i := .getEdges) rfl (everyBlock rfl) ?_,
    decodeCommand_of_sum (i := .getDrops arg) rfl (everyBlock rfl) ?_,
    decodeCommand_of_sum (i := .txLoadP b) rfl rfl ?_, decodeCommand_of_sum (i := .txLoadS b) rfl rfl ?_,
    decodeCommand_of_sum (i := .txPeriod arg) rfl rfl ?_, decodeCommand_of_sum (i := .txStart) rfl rfl ?_,
    decodeCommand_of_sum (i := .txStop) rfl rfl ?_, decodeCommand_of_sum (i := .txQuery arg) rfl rfl ?_⟩
  all_goals simp

end Sys2Proof

/-! ## Proofs: what a step does with a word (30_encoding.md R67, R74, R79)

A rejected command word, a reserved event word, and a program of events in the order of its lines. -/

namespace Sys2Proof.Machine

open Sys2Proof

/-! ### Words that name no instruction -/

/-- A word that fails a check of the port is answered ILLEGAL (30_encoding.md R67). -/
theorem step_of_not_admitted {s : State} {w : Word} {rest : List Input} (hs : s.inputs = .command w :: rest)
    (idle : s.rx.port = .idle) (h : ¬ Admitted s.cfg.hasTx w) :
    step s = .next ({ s with inputs := rest }.failed .illegal) := by
  have hfetch : fetch s = present (.command w) { s with inputs := rest } := by
    unfold fetch
    rw [hs]
    exact if_pos idle
  rw [step, hfetch, present]
  cases hdecode : decodeCommand s.cfg.hasTx w with
  | ok i => exact absurd (decodeCommand_eq_ok_iff.mp hdecode).1 h
  | error r => rfl

/-- An event word is presented where it stands first. -/
theorem fetch_event {s : State} {w : BitVec 8} {rest : List Input} (hs : s.inputs = .event w :: rest) :
    fetch s = present (.event w) { s with inputs := rest } := by
  unfold fetch
  rw [hs]

theorem step_event_of_ok {s : State} {w : BitVec 8} {rest : List Input} {i : Instr} (hs : s.inputs = .event w :: rest)
    (h : decodeEvent w = .ok i) : step s = exec i { s with inputs := rest } := by
  simp only [step, fetch_event hs, present, h]

theorem step_event_of_error {s : State} {w : BitVec 8} {rest : List Input} {r : Reject}
    (hs : s.inputs = .event w :: rest) (h : decodeEvent w = .error r) : step s = .refused .reservedEvent := by
  simp only [step, fetch_event hs, present, h]

/-- Settles O4: each ground fails one of the port's checks. -/
theorem reservedCommandWordsAreAnsweredIllegal : Obligations.ReservedCommandWordsAreAnsweredIllegal := by
  intro s w rest hs idle ground
  refine step_of_not_admitted hs idle fun checks => ?_
  rw [← fieldOp_toNat, ← fieldZ_toNat, ← fieldM_eq_true_iff, ← fieldArg_toNat] at ground
  rcases ground with reserved | zero | ⟨mode, notRead⟩ | ⟨noOperand, operand⟩ | ⟨transmitter, absent⟩
  · exact absurd (checks.known.symm.trans (isReservedOp_of_toNat _ reserved)) nofun
  · exact zero (congrArg BitVec.toNat checks.zero)
  · exact notRead (congrArg BitVec.toNat (checks.operands.mode mode))
  · exact operand (congrArg BitVec.toNat (checks.operands.noArg (isNoArgOp_of_toNat _ noOperand)))
  · exact absurd (absent.symm.trans (checks.present (isTxOp_of_toNat _ transmitter))) nofun

/-- Settles O5: the check of the byte operand fails. -/
theorem loadsWithAHighArgAreAnsweredIllegal : Obligations.LoadsWithAHighArgAreAnsweredIllegal := by
  intro s w rest hs idle load high
  refine step_of_not_admitted hs idle fun checks => high ?_
  rw [← fieldOp_toNat] at load
  have hbyte : (argHi (fieldArg w)).toNat = 0 :=
    congrArg BitVec.toNat (checks.operands.byte (isByteOp_of_toNat _ load))
  rw [argHi_toNat, fieldArg_toNat] at hbyte
  omega

/-- The words of the events are the ones that 30_encoding.md R61 lists. -/
theorem event_listed {i : Instr} {w : BitVec 8} (h : encode i = .event w) :
    w ∈ [0x10#8, 0x11#8, 0x12#8, 0x13#8, 0x20#8, 0x21#8, 0x30#8, 0x40#8, 0x50#8] := by
  cases i with
  | setDin ch v => cases h; cases ch <;> cases v <;> decide
  | setStrobe v => cases h; cases v <;> decide
  | cancel | reset | tick => cases h; decide
  | _ => cases h

/-- Settles O7: the words that decode are those of the events. -/
theorem reservedEventWordsAreRefused : Obligations.ReservedEventWordsAreRefused := by
  intro w
  constructor
  · intro unlisted s rest hs
    cases hdecode : decodeEvent w with
    | ok i => exact absurd (event_listed (decodeEvent_eq_ok_iff_encode.mp hdecode)) unlisted
    | error r => exact step_event_of_error hs hdecode
  · intro listed
    simp only [List.mem_cons, List.not_mem_nil, or_false] at listed
    rcases listed with rfl | rfl | rfl | rfl | rfl | rfl | rfl | rfl | rfl
    all_goals exact ⟨_, rfl⟩

/-! ### Programs of line events (30_encoding.md R79) -/

/-- What goes on from the next state of a result; a fault or a refusal stops. -/
def andThen (r : Result) (k : State → Result) : Result :=
  match r with
  | .next t => k t
  | .fault f => .fault f
  | .refused e => .refused e

theorem andThen_ite (c : Prop) [Decidable c] (r r' : Result) (k : State → Result) :
    andThen (if c then r else r') k = if c then andThen r k else andThen r' k :=
  apply_ite (andThen · k) c r r'

theorem execAll_cons (i : Instr) (is : List Instr) (s : State) :
    execAll (i :: is) s = andThen (exec i s) (execAll is) := rfl

theorem run_succ (k : Nat) (s : State) : core.run (k + 1) s = andThen (step s) (core.run k) := by
  cases hstep : step s <;> simp [Host.Core.run, andThen, core, hstep]

theorem loadProgram_nil (s : State) : s.loadProgram [] = s := by
  rw [State.loadProgram, List.append_nil]

theorem propagateIfLooped_inputs (s : State) : (propagateIfLooped s).inputs = s.inputs := by
  rw [propagateIfLooped_eq]

theorem propagateIfLooped_loadProgram (s : State) (xs : List Input) :
    propagateIfLooped (s.loadProgram xs) = (propagateIfLooped s).loadProgram xs := by
  simp only [propagateIfLooped_eq, loadProgram_cfg, loadProgram_rx, loadProgram_tx]
  rfl

/-- An instruction takes no input and leaves none. -/
theorem exec_inputs {i : Instr} {s t : State} (h : exec i s = .next t) : t.inputs = s.inputs := by
  cases exec_effect h with
  | starts | enters => exact propagateIfLooped_inputs _
  | _ => rfl

/-- An event does the same whatever waits behind it. -/
theorem exec_event_loadProgram {i : Instr} {w : BitVec 8} (h : encode i = .event w) (s : State) (xs : List Input) :
    exec i (s.loadProgram xs) = andThen (exec i s) fun t => .next (t.loadProgram xs) := by
  cases i with
  | setDin ch v =>
    simp only [exec, execSetDin, loadProgram_cfg, andThen_ite]
    rfl
  | setStrobe v =>
    simp only [exec, execSetStrobe, loadProgram_cfg, andThen_ite]
    rfl
  | cancel =>
    simp only [exec, execCancel, loadProgram_rx]
    split <;> rfl
  | reset => rfl
  | tick =>
    simp only [exec, execTick, loadProgram_cfg, loadProgram_tx, andThen_ite]
    cases nextPhase s.cfg { s.tx with tmr := s.tx.tmr - 1 } with
    | none => rfl
    | some u =>
      have wiring := propagateIfLooped_loadProgram { s with tx := u } xs
      simp only [andThen, ← wiring]
      rfl
  | _ => cases h

/-- The step that takes the first word of a loaded program of events. -/
theorem step_loadProgram_event {s : State} {i : Instr} {w : BitVec 8} (h : encode i = .event w) (empty : s.inputs = [])
    (xs : List Input) :
    step (s.loadProgram (encode i :: xs)) = andThen (exec i s) fun t => .next (t.loadProgram xs) := by
  have first : (s.loadProgram (encode i :: xs)).inputs = .event w :: xs := by simp [empty, h]
  have rest : { s.loadProgram (encode i :: xs) with inputs := xs } = s.loadProgram xs := by
    simp [State.loadProgram, empty]
  rw [step_event_of_ok first (decodeEvent_eq_ok_iff_encode.mpr h), rest, exec_event_loadProgram h]

/-- Settles O10, by induction on the program: the state after an event still has the rest of the program loaded. -/
theorem eventProgramsRunInOrder : Obligations.EventProgramsRunInOrder := by
  intro is
  induction is with
  | nil =>
    intro s _ _
    exact congrArg Host.Outcome.next (loadProgram_nil s)
  | cons i is ih =>
    intro s events empty
    obtain ⟨⟨w, hw⟩, later⟩ := List.forall_mem_cons.mp events
    rw [List.map_cons, List.length_cons, run_succ, step_loadProgram_event hw empty, execAll_cons]
    cases hexec : exec i s with
    | next t => exact ih t later ((exec_inputs hexec).trans empty)
    | fault r => rfl
    | refused r => rfl

/-! ### Responses (30_encoding.md R60) -/

/-- VALUE 0 and no DATA unless the status is OK; DATA of VALUE bytes; at most 65535 bytes. -/
def Response.Shaped (r : Response) : Prop :=
  (r.st ≠ .ok → r.value = 0 ∧ r.data = []) ∧ (r.data ≠ [] → r.data.length = r.value.toNat) ∧ r.data.length ≤ 65535

/-- A response without DATA. -/
theorem shaped_of_noData {st : Status} {v : Word} (h : st ≠ .ok → v = 0) : Response.Shaped ⟨st, v, []⟩ :=
  ⟨fun hst => ⟨h hst, rfl⟩, fun hdata => absurd rfl hdata, Nat.zero_le _⟩

/-- The dequeue answers with as many bytes as it says: an operand of 16 bits bounds them. -/
theorem deliver_shaped (ch : Channel) (n : Arg) (r : Rx) :
    Response.Shaped ⟨.ok, BitVec.ofNat 32 (readLength ch n r), qFront ch (readLength ch n r) r⟩ := by
  have bound : readLength ch n r ≤ 65535 := (Nat.min_le_left _ _).trans (Nat.le_of_lt_succ n.isLt)
  have length : (qFront ch (readLength ch n r) r).length = readLength ch n r :=
    List.length_take_of_le (readLength_le ch n r)
  refine ⟨fun h => absurd rfl h, fun _ => ?_, length.trans_le bound⟩
  rw [length, BitVec.toNat_ofNat, Nat.mod_eq_of_lt (by omega)]

theorem exec_shaped {i : Instr} {s t : State} (h : exec i s = .next t) :
    t.responses = s.responses ∨ ∃ r, r.Shaped ∧ t.responses = s.responses ++ [r] := by
  cases exec_effect h with
  | nothing | pends | setsDin | setsStrobe | resets | counts => exact .inl rfl
  | enters => exact .inl (propagateIfLooped_responses _)
  | delivers n => exact .inr ⟨_, deliver_shaped s.rx.sel n s.rx, rfl⟩
  | responds st v _ failed => exact .inr ⟨_, shaped_of_noData failed, rfl⟩
  | starts => exact .inr ⟨_, shaped_of_noData fun _ => rfl, propagateIfLooped_responses _⟩
  | selects | loads | setsPeriod | stops | cancels => exact .inr ⟨_, shaped_of_noData fun _ => rfl, rfl⟩

theorem step_shaped {s t : State} (h : step s = .next t) :
    t.responses = s.responses ∨ ∃ r, r.Shaped ∧ t.responses = s.responses ++ [r] := by
  rcases step_next h with ⟨i, xs, _, hexec⟩ | ⟨_, xs, rfl⟩ | ⟨xs, rfl⟩
  · exact exec_shaped (s := { s with inputs := xs }) hexec
  · exact .inr ⟨_, shaped_of_noData fun _ => rfl, rfl⟩
  · rcases rdcTurn_cases { s with inputs := xs } with ⟨ch, n, _, _, hturn⟩ | ⟨_, hturn⟩ <;> rw [hturn]
    · exact .inr ⟨_, deliver_shaped ch n _, rfl⟩
    · exact .inl rfl

/-- Settles O48, by the responses an instruction and the port deliver. -/
theorem responsesHaveTheirShape : Obligations.ResponsesHaveTheirShape := by
  intro s t r h delivered
  rcases step_shaped h with silent | ⟨r', shaped, appended⟩
  · simp [delivered] at silent
  · obtain rfl : r = r' := by simpa using delivered.symm.trans appended
    exact shaped

/-! ### Status codes and the EDGE line -/

/-- Settles O58. -/
theorem statusCodesOfTheSpec : Obligations.StatusCodesOfTheSpec :=
  ⟨⟨rfl, rfl, rfl, rfl, rfl, rfl, rfl, rfl⟩, fun st => by cases st <;> decide⟩

/-- A line whose operands fit assembles to the words of its instructions (30_encoding.md R76). -/
theorem assembleLine_of_wellFormed {l : Line} (h : l.wellFormed = true) :
    assembleLine l = some ((lineInstrs l).map encode) := if_pos h

/-- A line with an operand that does not fit has no encoding (30_encoding.md R76). -/
theorem assembleLine_of_not_wellFormed {l : Line} (h : ¬ l.wellFormed = true) : assembleLine l = none := if_neg h

theorem edge_wellFormed_iff (b0 b1 : Nat) : (Line.edge b0 b1).wellFormed = true ↔ b0 ≤ 1 ∧ b1 ≤ 1 := by
  simp [Line.wellFormed]

/-- SET_DIN's word: CH in bit 1 and V in bit 0 (30_encoding.md R61). -/
theorem setDin_word (ch : Channel) {b : Nat} (h : b ≤ 1) :
    encode (.setDin ch (b == 1)) = .event (BitVec.ofNat 8 (0x10 + 2 * (bitOfChannel ch).toNat + b)) := by
  interval_cases b <;> cases ch <;> rfl

/-- Settles O59: the two levels make the words of SET_DIN, and SET_STROBE low and high follow. -/
theorem edgeExpandsToFourWords : Obligations.EdgeExpandsToFourWords := by
  constructor
  · intro b0 b1 h0 h1
    rw [assembleLine_of_wellFormed ((edge_wellFormed_iff b0 b1).mpr ⟨h0, h1⟩)]
    simp only [lineInstrs, edgeInstrs, List.map_cons, List.map_nil, setDin_word _ h0, setDin_word _ h1]
    rfl
  · intro b0 b1 h
    exact assembleLine_of_not_wellFormed (by rw [edge_wellFormed_iff]; omega)

end Sys2Proof.Machine

/-! ## Proofs: the transmitter's commands, TICK and the loopback wiring (40_transmitter.md R83 to R92, R96)

An equation for each branch of TICK and of the sequencer, then what the commands answer, and what no step but TX_STOP and
RESET does to a running transmitter. -/

namespace Sys2Proof.Machine

open Sys2Proof

/-! ### Answers (00_scope.md R15) -/

theorem fail_eq (st : Status) (s : State) :
    fail st s = .next { s with responses := s.responses ++ [⟨st, 0, []⟩] } := rfl

theorem answer_eq (v : Word) (s : State) :
    answer v s = .next { s with responses := s.responses ++ [⟨.ok, v, []⟩] } := rfl

/-! ### The phases, each by what it enters when it runs out (40_transmitter.md R90, R91) -/

theorem enterSetup_of_read {cfg : Config} {k : Nat} {i : BitVec 3} {t : Tx} {b0 b1 : Byte}
    (h0 : txRead .primary k t = some b0) (h1 : txRead .secondary k t = some b1) :
    enterSetup cfg k i t = some { t with
      i := i, dout := ⟨b0.getLsbD i.toNat, b1.getLsbD i.toNat⟩, strobeOut := false
      ph := .setup, tmr := cfg.tSetup } := by
  simp only [enterSetup, h0, h1]

theorem nextPhase_of_setup {cfg : Config} {t : Tx} (h : t.ph = .setup) :
    nextPhase cfg t = some (enterPulse cfg t) := by
  simp only [nextPhase, h]

theorem nextPhase_of_pulse {cfg : Config} {t : Tx} (h : t.ph = .pulse) :
    nextPhase cfg t = some (enterDead cfg t) := by
  simp only [nextPhase, h]

theorem nextPhase_of_dead {cfg : Config} {t : Tx} (h : t.ph = .dead) (more : t.i.toNat < 7) :
    nextPhase cfg t = enterSetup cfg t.k (t.i + 1) t := by
  simp only [nextPhase, h, if_pos more]

theorem nextPhase_of_lastDead {cfg : Config} {t : Tx} (h : t.ph = .dead) (last : t.i.toNat = 7) :
    nextPhase cfg t = some (enterGap cfg t) := by
  simp only [nextPhase, h, if_neg last.not_lt]

theorem nextPhase_of_gap {cfg : Config} {t : Tx} (h : t.ph = .gap) :
    nextPhase cfg t = enterSetup cfg ((t.k + 1) % (t.buf.get .primary).length) 0
      { t with k := (t.k + 1) % (t.buf.get .primary).length } := by
  simp only [nextPhase, h]

/-- The data outputs change only on entering SETUP (40_transmitter.md R82). -/
theorem nextPhase_dout {cfg : Config} {t u : Tx} (h : nextPhase cfg t = some u) :
    u.dout = t.dout ∨ u.ph = .setup ∧ u.strobeOut = false ∧ u.tmr = cfg.tSetup := by
  unfold nextPhase at h
  split at h
  · cases h
    exact .inl rfl
  · cases h
    exact .inl rfl
  · split at h
    · obtain ⟨_, _, _, _, rfl⟩ := enterSetup_some h
      exact .inr ⟨rfl, rfl, rfl⟩
    · cases h
      exact .inl rfl
  · obtain ⟨_, _, _, _, rfl⟩ := enterSetup_some h
    exact .inr ⟨rfl, rfl, rfl⟩

/-! ### A state whose outputs drive the wiring (40_transmitter.md R96) -/

/-- s with the transmitter at t, and under LOOPBACK the receiver's lines at t's outputs: what a phase entry leaves. -/
def State.driving (s : State) (t : Tx) : State := propagateIfLooped { s with tx := t }

@[simp] theorem driving_cfg (s : State) (t : Tx) : (s.driving t).cfg = s.cfg := propagateIfLooped_cfg _

@[simp] theorem driving_tx (s : State) (t : Tx) : (s.driving t).tx = t := propagateIfLooped_tx _

theorem driving_eq (s : State) (t : Tx) : s.driving t = { s with
    tx := t, rx := if s.cfg.loopback then propagate s.cfg.cap t.dout t.strobeOut s.rx else s.rx } :=
  propagateIfLooped_eq _

theorem propagate_of_rise {cap : Nat} {dout : Both Level} {strobe : Level} {r : Rx}
    (h : r.strobeIn = false ∧ strobe = true) :
    propagate cap dout strobe r = { edge cap { r with din := dout } with strobeIn := true } := by
  rw [propagate_eq, setStrobe_of_rise (r := { r with din := dout }) h, h.2]

theorem propagate_of_no_rise {cap : Nat} {dout : Both Level} {strobe : Level} {r : Rx}
    (h : ¬(r.strobeIn = false ∧ strobe = true)) :
    propagate cap dout strobe r = { r with din := dout, strobeIn := strobe } := by
  exact (propagate_eq ..).trans (setStrobe_of_no_rise (r := { r with din := dout }) h)

/-- Settles O34: Propagate is SET_DIN on both lines and then SET_STROBE. -/
theorem propagateSetsDataBeforeStrobe : Obligations.PropagateSetsDataBeforeStrobe :=
  fun _ _ _ _ => ⟨propagate_of_rise, propagate_of_no_rise⟩

/-! ### TICK (40_transmitter.md R91) -/

theorem tick_of_idle {s : State} (idle : s.cfg.hasTx = false ∨ s.tx.run = false) : exec .tick s = .next s :=
  if_pos idle

/-- The guard of a TICK that has an effect. -/
theorem not_tick_idle {s : State} (hasTx : s.cfg.hasTx = true) (run : s.tx.run = true) :
    ¬ (s.cfg.hasTx = false ∨ s.tx.run = false) := by
  simp [hasTx, run]

theorem tick_of_more {s : State} (hasTx : s.cfg.hasTx = true) (run : s.tx.run = true) (more : 2 ≤ s.tx.tmr) :
    exec .tick s = .next { s with tx := { s.tx with tmr := s.tx.tmr - 1 } } := by
  rw [exec, execTick, if_neg (not_tick_idle hasTx run), if_neg (by omega), if_pos (by omega)]

theorem tick_of_last {s : State} {u : Tx} (hasTx : s.cfg.hasTx = true) (run : s.tx.run = true) (last : s.tx.tmr = 1)
    (next : nextPhase s.cfg { s.tx with tmr := 0 } = some u) : exec .tick s = .next (s.driving u) := by
  rw [exec, execTick, if_neg (not_tick_idle hasTx run), if_neg (by omega), if_neg (by omega)]
  simp only [last, Nat.sub_self, next]
  rfl

/-- Settles O33: at the end of each phase, the next one by its equation. -/
theorem tickAdvancesTheSequencer : Obligations.TickAdvancesTheSequencer := by
  rintro s looped rfl
  refine ⟨tick_of_idle, tick_of_more, fun hasTx run last t phase => ?_⟩
  rw [tick_of_last hasTx run last (u := t), driving_eq]
  rcases phase with ⟨ph, rfl⟩ | ⟨ph, rfl⟩ | ⟨ph, bit, rfl⟩ | ⟨ph, bit, b0, b1, h0, h1, rfl⟩ |
    ⟨ph, k, b0, b1, rfl, h0, h1, rfl⟩
  · exact nextPhase_of_setup ph
  · exact nextPhase_of_pulse ph
  · exact nextPhase_of_lastDead ph bit
  · have succ : (s.tx.i + 1).toNat = s.tx.i.toNat + 1 := by bv_omega
    rw [← succ]
    exact (nextPhase_of_dead ph bit).trans (enterSetup_of_read h0 h1)
  · exact (nextPhase_of_gap ph).trans (enterSetup_of_read h0 h1)

/-! ### The transmitter commands (40_transmitter.md R83 to R89) -/

/-- The two loads are one meaning at two buffers. -/
theorem exec_load {i : Instr} {c : Channel} {b : Byte}
    (h : i = .txLoadP b ∧ c = .primary ∨ i = .txLoadS b ∧ c = .secondary) (s : State) : exec i s = txLoad c b s := by
  rcases h with ⟨rfl, rfl⟩ | ⟨rfl, rfl⟩ <;> rfl

/-- Settles O27: the checks of a load, in their order. -/
theorem txLoadAppendsOneByte : Obligations.TxLoadAppendsOneByte := by
  intro i c b s load
  rw [exec_load load, txLoad]
  refine ⟨fun hasTx idle room => ?_, fun hasTx idle full => ?_, fun hasTx run => ?_, fun absent => ?_⟩
  · rw [if_neg (ne_false_of_eq_true hasTx), if_neg (ne_true_of_eq_false idle), if_neg room]
    rfl
  · rw [if_neg (ne_false_of_eq_true hasTx), if_neg (ne_true_of_eq_false idle), if_pos full, fail_eq]
  · rw [if_neg (ne_false_of_eq_true hasTx), if_pos run, fail_eq]
  · rw [if_pos absent, fail_eq]

/-- Settles O28: the checks of TX_PERIOD, in their order. -/
theorem txPeriodSetsThePeriod : Obligations.TxPeriodSetsThePeriod := by
  intro p s
  rw [exec, execTxPeriod]
  refine ⟨fun hasTx idle positive => ?_, fun hasTx idle zero => ?_, fun hasTx run => ?_, fun absent => ?_⟩
  · rw [if_neg (ne_false_of_eq_true hasTx), if_neg (ne_true_of_eq_false idle), if_neg positive, answer_eq]
  · rw [if_neg (ne_false_of_eq_true hasTx), if_neg (ne_true_of_eq_false idle), if_pos zero, fail_eq]
  · rw [if_neg (ne_false_of_eq_true hasTx), if_pos run, fail_eq]
  · rw [if_pos absent, fail_eq]

/-- A TX_START that passes its checks (40_transmitter.md R87). -/
theorem txStart_of_checks {s : State} {u : Tx} (hasTx : s.cfg.hasTx = true) (idle : s.tx.run = false)
    (same : (s.tx.buf.get .secondary).length = (s.tx.buf.get .primary).length)
    (nonempty : (s.tx.buf.get .primary).length ≠ 0) (period : s.tx.period ≠ 0)
    (setup : enterSetup s.cfg 0 0 { s.tx with run := true, oe := true, k := 0 } = some u) :
    exec .txStart s = .next (State.driving (s.respond .ok 0 []) u) := by
  rw [exec, execTxStart, if_neg (ne_false_of_eq_true hasTx), if_neg (ne_true_of_eq_false idle),
    if_neg (not_not.mpr same), if_neg nonempty, if_neg period]
  simp only [setup]
  rfl

/-- Settles O29: SETUP is entered at bit 0, and a strobe that is low makes no edge. -/
theorem txStartEntersSetupOfBitZero : Obligations.TxStartEntersSetupOfBitZero := by
  intro s b0 b1 l0 l1 hasTx idle bufs lengths period
  have h0 : txRead .primary 0 { s.tx with run := true, oe := true, k := 0 } = some b0 := by simp [txRead, bufs]
  have h1 : txRead .secondary 0 { s.tx with run := true, oe := true, k := 0 } = some b1 := by simp [txRead, bufs]
  rw [txStart_of_checks hasTx idle (by simp [bufs, lengths]) (by simp [bufs]) period
      (enterSetup_of_read h0 h1),
    driving_eq, propagate_of_no_rise (by simp)]
  rfl

/-- Settles O30: every failing check comes before the first change. -/
theorem failingTxStartTouchesNoPin : Obligations.FailingTxStartTouchesNoPin := by
  intro s
  rw [exec, execTxStart]
  refine ⟨fun hasTx run => ?_, fun hasTx idle failing => ?_, fun absent => ?_⟩
  · rw [if_neg (ne_false_of_eq_true hasTx), if_pos run, fail_eq]
  · rw [if_neg (ne_false_of_eq_true hasTx), if_neg (ne_true_of_eq_false idle), ← fail_eq]
    by_cases unequal : (s.tx.buf.get .secondary).length ≠ (s.tx.buf.get .primary).length
    · exact if_pos unequal
    · rw [if_neg unequal]
      rcases failing with differ | empty | unset
      · exact absurd differ.symm unequal
      · exact if_pos (List.length_eq_zero_iff.mpr empty)
      · rw [if_pos unset, ite_self]
  · rw [if_pos absent, fail_eq]

/-- Settles O31: a stopped transmitter is one at power-on that keeps its PERIOD. -/
theorem txStopReleasesEverything : Obligations.TxStopReleasesEverything := by
  refine ⟨rfl, fun s => ⟨fun hasTx => ?_, fun absent => ?_⟩⟩
  · rw [exec, execTxStop, if_neg (by simp [hasTx])]
    rfl
  · rw [exec, execTxStop, if_pos absent]
    rfl

theorem bitValue_eq (b : Bool) : bitValue b = if b then 1 else 0 := by cases b <;> rfl

theorem lengthValue_of_lt {n : Nat} (h : n < 2 ^ 32) : lengthValue n = BitVec.ofNat 32 n := if_pos h

/-- A TX_QUERY of a block with a transmitter, by its selector's number (40_transmitter.md R89). -/
theorem txQuery_of_hasTx {s : State} (hasTx : s.cfg.hasTx = true) (sel : Arg) :
    exec (.txQuery sel) s =
      if sel.toNat = 0 then answer (bitValue s.tx.run) s
      else if sel.toNat = 1 then answer (lengthValue s.tx.buf.primary.length) s
      else if sel.toNat = 2 then answer (lengthValue s.tx.buf.secondary.length) s
      else if sel.toNat = 3 then answer (s.tx.period.setWidth 32) s
      else fail .inval s := by
  have selector : ∀ n : Arg, (sel = n) = (sel.toNat = n.toNat) := fun n => propext BitVec.toNat_inj.symm
  rw [exec, execTxQuery, if_neg (ne_false_of_eq_true hasTx)]
  simp only [selector]
  rfl

/-- Settles O32: one selector after the other. -/
theorem txQueryReadsTheTransmitter : Obligations.TxQueryReadsTheTransmitter := by
  intro sel s
  refine ⟨fun hasTx h => ?_, fun hasTx h fits => ?_, fun hasTx h fits => ?_, fun hasTx h => ?_, fun hasTx h => ?_,
    fun absent => if_pos absent⟩ <;> rw [txQuery_of_hasTx hasTx]
  · rw [if_pos h, bitValue_eq, answer_eq]
  · rw [if_neg (by omega), if_pos h, lengthValue_of_lt fits, answer_eq]
  · rw [if_neg (by omega), if_neg (by omega), if_pos h, lengthValue_of_lt fits, answer_eq]
  · rw [if_neg (by omega), if_neg (by omega), if_neg (by omega), if_pos h, answer_eq,
      BitVec.ofNat_toNat]
  · rw [if_neg (by omega), if_neg (by omega), if_neg (by omega), if_neg (by omega), fail_eq]

/-! ### What a step does to a running transmitter and to the lines -/

/-- Settles O54: what a running transmitter answers BUSY to changes nothing, and a phase entry keeps what is loaded. -/
theorem runningTransmitterIsNotChanged : Obligations.RunningTransmitterIsNotChanged := by
  intro i s t run notStop notReset h
  cases exec_effect h with
  | nothing | responds | delivers | pends | selects | setsDin | setsStrobe | cancels | counts => exact ⟨run, rfl, rfl⟩
  | loads _ _ _ _ idle | setsPeriod _ _ _ idle | starts _ _ _ idle => simp [run] at idle
  | stops isStop => exact absurd isStop notStop
  | resets isReset => exact absurd isReset notReset
  | enters u _ _ _ _ next =>
    obtain ⟨hrun, hbuf, hperiod, _⟩ := nextPhase_keeps next
    rw [propagateIfLooped_tx]
    exact ⟨hrun.trans run, hbuf, hperiod⟩

/-- An instruction that changes a data output enters SETUP or releases the outputs. -/
theorem exec_dout {i : Instr} {s t : State} (h : exec i s = .next t) :
    t.tx.dout = s.tx.dout ∨ t.tx.ph = .setup ∧ t.tx.strobeOut = false ∧
      ((t.tx.run = true ∧ t.tx.tmr = t.cfg.tSetup) ∨ (t.tx.run = false ∧ t.tx.oe = false)) := by
  cases exec_effect h with
  | nothing | responds | delivers | pends | selects | loads | setsPeriod | setsDin | setsStrobe | cancels | counts =>
    exact .inl rfl
  | starts u _ _ _ _ _ _ setup =>
    obtain ⟨_, _, _, _, rfl⟩ := enterSetup_some setup
    rw [propagateIfLooped_tx, propagateIfLooped_cfg]
    exact .inr ⟨rfl, rfl, .inl ⟨rfl, rfl⟩⟩
  | stops => exact .inr ⟨rfl, rfl, .inr ⟨rfl, rfl⟩⟩
  | resets =>
    by_cases hasTx : s.cfg.hasTx = true
    · simp only [if_pos hasTx]
      exact .inr ⟨rfl, rfl, .inr ⟨rfl, rfl⟩⟩
    · exact .inl (by simp only [if_neg hasTx])
  | enters u _ _ running _ next =>
    obtain ⟨hrun, _⟩ := nextPhase_keeps next
    rw [propagateIfLooped_tx, propagateIfLooped_cfg]
    exact (nextPhase_dout next).imp_right fun ⟨setup, low, full⟩ => ⟨setup, low, .inl ⟨hrun.trans running, full⟩⟩

/-- Settles O55: only an instruction can change an output. -/
theorem dataChangesOnlyOnEnteringSetup : Obligations.DataChangesOnlyOnEnteringSetup := by
  intro s t h changed
  rcases step_exec_or_port h with ⟨i, xs, hexec⟩ | ⟨_, htx, _⟩
  · exact (exec_dout hexec).resolve_left changed
  · exact absurd (congrArg Tx.dout htx) changed

/-- Settles O56: the clause of the invariant about the looped lines needs no other clause. -/
theorem stepKeepsTheLoopbackLinesEqual : Obligations.StepKeepsTheLoopbackLinesEqual :=
  fun _ _ => step_linesLooped

end Sys2Proof.Machine

/-! ## Proofs: the transmitter and the receiver share no state (40_transmitter.md R99)

What a result shows of the next state, first in the transmitter and then in the receiver with its answers. -/

namespace Sys2Proof.Machine

open Sys2Proof

/-- What f reads of the next state of a result; nothing where there is none. -/
def observe {α : Type} (f : State → α) : Result → Option α
  | .next t => some (f t)
  | _ => none

theorem observe_inj {α : Type} {f : State → α} {x y : Result} {t u : State} (h : observe f x = observe f y)
    (hx : x = .next t) (hy : y = .next u) : f t = f u := by
  subst hx hy
  exact Option.some.inj h

/-- The wiring does not show in the transmitter. -/
theorem observe_tx_propagateIfLooped (s : State) : observe State.tx (.next (propagateIfLooped s)) = some s.tx :=
  congrArg some (propagateIfLooped_tx s)

/-! ### The instructions of each side (40_transmitter.md R83) -/

/-- An instruction that is neither of the transmitter nor RESET leaves the transmitter alone. -/
theorem exec_tx_of_receiver {i : Instr} {s t : State} (command : i.needsTx = false) (notTick : i ≠ .tick)
    (notReset : i ≠ .reset) (h : exec i s = .next t) : t.tx = s.tx := by
  cases exec_effect h with
  | nothing | responds | delivers | pends | selects | setsDin | setsStrobe | cancels => rfl
  | loads _ _ isLoad => rcases isLoad with rfl | rfl <;> cases command
  | setsPeriod _ isPeriod => subst isPeriod; cases command
  | starts _ isStart => subst isStart; cases command
  | stops isStop => subst isStop; cases command
  | resets isReset => exact absurd isReset notReset
  | counts isTick | enters _ isTick => exact absurd isTick notTick

/-- Without LOOPBACK an instruction of the transmitter leaves the receiver alone. -/
theorem exec_rx_of_transmitter {i : Instr} {s t : State} (side : i.needsTx = true ∨ i = .tick)
    (notLooped : s.cfg.loopback = false) (h : exec i s = .next t) : t.rx = s.rx := by
  cases exec_effect h with
  | nothing | responds | loads | setsPeriod | stops | counts => rfl
  | starts | enters => simp [propagateIfLooped_eq, notLooped]
  | delivers _ isRead => rcases isRead with rfl | rfl <;> simp [Instr.needsTx] at side
  | pends _ other | selects _ _ other | setsDin _ _ other | setsStrobe _ other | cancels other | resets other =>
    subst other
    simp [Instr.needsTx] at side

/-- The transmitter after its own instruction, or RESET, is computed from the parameters and the transmitter. -/
theorem observe_tx_of_transmitter {i : Instr} {s s' : State} (side : i.needsTx = true ∨ i = .tick ∨ i = .reset)
    (hcfg : s.cfg = s'.cfg) (htx : s.tx = s'.tx) : observe State.tx (exec i s) = observe State.tx (exec i s') := by
  obtain ⟨cfg, rx, tx, inputs, responses⟩ := s
  obtain ⟨_, rx', _, inputs', responses'⟩ := s'
  obtain rfl : cfg = _ := hcfg
  obtain rfl : tx = _ := htx
  cases i with
  | txLoadP b | txLoadS b =>
    simp only [exec, execTxLoadP, execTxLoadS, txLoad, apply_ite (observe State.tx)]
    rfl
  | txPeriod p =>
    simp only [exec, execTxPeriod, apply_ite (observe State.tx)]
    rfl
  | txStart =>
    simp only [exec, execTxStart, apply_ite (observe State.tx)]
    cases enterSetup cfg 0 0 { tx with run := true, oe := true, k := 0 } with
    | none => rfl
    | some u =>
      simp only [observe_tx_propagateIfLooped]
      rfl
  | txStop =>
    simp only [exec, execTxStop, apply_ite (observe State.tx)]
    rfl
  | txQuery sel =>
    simp only [exec, execTxQuery, apply_ite (observe State.tx)]
    rfl
  | reset => rfl
  | tick =>
    simp only [exec, execTick, apply_ite (observe State.tx)]
    cases nextPhase cfg { tx with tmr := tx.tmr - 1 } with
    | none => rfl
    | some u =>
      simp only [observe_tx_propagateIfLooped]
      rfl
  | _ => simp [Instr.needsTx] at side

/-- The receiver after an instruction that is not the transmitter's, and what is answered, are computed from the parameters,
the receiver and the record of responses. -/
theorem observe_rx_of_receiver {i : Instr} {s s' : State} (command : i.needsTx = false) (notTick : i ≠ .tick)
    (hcfg : s.cfg = s'.cfg) (hrx : s.rx = s'.rx) (hresponses : s.responses = s'.responses) :
    observe (fun t => (t.rx, t.responses)) (exec i s) = observe (fun t => (t.rx, t.responses)) (exec i s') := by
  obtain ⟨cfg, rx, tx, inputs, responses⟩ := s
  obtain ⟨_, _, tx', inputs', _⟩ := s'
  obtain rfl : cfg = _ := hcfg
  obtain rfl : rx = _ := hrx
  obtain rfl : responses = _ := hresponses
  cases i with
  | read n | readNb n =>
    simp only [exec, execRead, execReadNb, readCommand, apply_ite (observe _)]
    rfl
  | select c =>
    simp only [exec, execSelect]
    cases channelOperand c <;> rfl
  | getCount c =>
    simp only [exec, execGetCount]
    cases channelOperand c <;> rfl
  | getDrops c =>
    simp only [exec, execGetDrops]
    cases channelOperand c <;> rfl
  | query | getEdges | reset => rfl
  | setDin ch v =>
    simp only [exec, execSetDin, apply_ite (observe _)]
    rfl
  | setStrobe v =>
    simp only [exec, execSetStrobe, apply_ite (observe _)]
    rfl
  | cancel =>
    simp only [exec, execCancel]
    cases rx.port <;> rfl
  | tick => exact absurd rfl notTick
  | txLoadP | txLoadS | txPeriod | txStart | txStop | txQuery => cases command

/-- What an instruction leaves in the transmitter does not depend on the receiver. -/
theorem exec_tx_congr {i : Instr} {s s' t t' : State} (hcfg : s.cfg = s'.cfg) (htx : s.tx = s'.tx)
    (h : exec i s = .next t) (h' : exec i s' = .next t') : t.tx = t'.tx := by
  by_cases side : i.needsTx = true ∨ i = .tick ∨ i = .reset
  · exact observe_inj (observe_tx_of_transmitter side hcfg htx) h h'
  · obtain ⟨command, notTick, notReset⟩ : i.needsTx = false ∧ i ≠ .tick ∧ i ≠ .reset := by simpa using side
    rw [exec_tx_of_receiver command notTick notReset h, htx, exec_tx_of_receiver command notTick notReset h']

/-- Settles O50: the two frames, and the two results that each side computes by itself. -/
theorem transmitterAndReceiverShareNoState : Obligations.TransmitterAndReceiverShareNoState := by
  refine ⟨fun _ _ _ => exec_rx_of_transmitter, fun _ _ _ => exec_tx_of_receiver, fun _ _ _ _ _ => exec_tx_congr, ?_⟩
  intro i s s' t t' command notTick hcfg hrx hresponses h h'
  exact Prod.mk.inj (observe_inj (observe_rx_of_receiver command notTick hcfg hrx hresponses) h h')

end Sys2Proof.Machine

/-! ## Proofs: the timing law (40_transmitter.md R93)

A phase lasts as many ticks as its timer says. From the start of one bit to the start of the next the four phases follow
each other, and one induction over samples and bits, `ticks_to_bit`, carries whatever a bit and a gap keep. -/

namespace Sys2Proof.Machine

open Sys2Proof

/-! ### TICKS n -/

theorem execAll_append (is js : List Instr) (s : State) :
    execAll (is ++ js) s = andThen (execAll is s) (execAll js) := by
  induction is generalizing s with
  | nil => rfl
  | cons i is ih =>
    rw [List.cons_append, execAll_cons, execAll_cons]
    cases exec i s with
    | next t => exact ih t
    | fault f => rfl
    | refused r => rfl

theorem ticks_trans {m n : Nat} {s t u : State} (first : ticks m s = .next t) (rest : ticks n t = .next u) :
    ticks (m + n) s = .next u := by
  rw [ticks, ← List.replicate_append_replicate, execAll_append, ← ticks, first]
  exact rest

theorem ticks_one {s t : State} (h : exec .tick s = .next t) : ticks 1 s = .next t := by
  rw [ticks, List.replicate_one, execAll_cons, h]
  rfl

/-- Inside a phase the timer counts down, and nothing else changes. -/
theorem ticks_within {s : State} (hasTx : s.cfg.hasTx = true) (run : s.tx.run = true) {m : Nat} (inside : m < s.tx.tmr) :
    ticks m s = .next { s with tx := { s.tx with tmr := s.tx.tmr - m } } := by
  induction m with
  | zero => rfl
  | succ m ih =>
    have more : 2 ≤ s.tx.tmr - m := by omega
    exact ticks_trans (ih (by omega))
      (ticks_one (tick_of_more (s := { s with tx := { s.tx with tmr := s.tx.tmr - m } }) hasTx run more))

/-- At the end of a phase the next one is entered. -/
theorem ticks_phase {s : State} {u : Tx} {d : Nat} (hasTx : s.cfg.hasTx = true) (run : s.tx.run = true)
    (length : s.tx.tmr = d) (positive : 1 ≤ d) (next : nextPhase s.cfg { s.tx with tmr := 0 } = some u) :
    ticks d s = .next (s.driving u) := by
  subst length
  have last : s.tx.tmr - (s.tx.tmr - 1) = 1 := by omega
  have h := ticks_trans (ticks_within hasTx run (Nat.sub_lt positive Nat.one_pos))
    (ticks_one (tick_of_last (s := { s with tx := { s.tx with tmr := s.tx.tmr - (s.tx.tmr - 1) } }) hasTx run last next))
  rwa [Nat.sub_add_cancel positive] at h

/-! ### The start of a bit -/

/-- The byte that is sent n-th on channel c: the one of index n mod L (40_transmitter.md R92). -/
def Tx.sample (t : Tx) (c : Channel) (n : Nat) : Byte :=
  (t.buf.get c).getD (n % t.buf.primary.length) 0

/-- The checks of a TX_START that succeeds, with legal parameters (40_transmitter.md R87). -/
structure State.Ready (s : State) : Prop where
  legal      : s.cfg.Legal
  hasTx      : s.cfg.hasTx = true
  sameLength : (s.tx.buf.get .secondary).length = (s.tx.buf.get .primary).length
  nonempty   : (s.tx.buf.get .primary).length ≠ 0
  periodSet  : s.tx.period ≠ 0

/-- The transmitter at the start of SETUP of bit i of the n-th sample, for a TX_START at s. -/
def bitStart (s : State) (n i : Nat) : Tx :=
  { s.tx with
    run := true, oe := true, k := n % s.tx.buf.primary.length, i := BitVec.ofNat 3 i, ph := .setup, tmr := s.cfg.tSetup
    dout := ⟨(s.tx.sample .primary n).getLsbD i, (s.tx.sample .secondary n).getLsbD i⟩, strobeOut := false }

@[simp] theorem bitStart_buf (s : State) (n i : Nat) : (bitStart s n i).buf = s.tx.buf := rfl

@[simp] theorem bitStart_k (s : State) (n i : Nat) : (bitStart s n i).k = n % s.tx.buf.primary.length := rfl

@[simp] theorem bitStart_i (s : State) (n i : Nat) : (bitStart s n i).i = BitVec.ofNat 3 i := rfl

theorem bitStart_dout (s : State) (n i : Nat) (c : Channel) :
    (bitStart s n i).dout.get c = (s.tx.sample c n).getLsbD i := by
  cases c <;> rfl

theorem State.Ready.getElem?_sample {s : State} (h : s.Ready) (c : Channel) (n : Nat) :
    (s.tx.buf.get c)[n % s.tx.buf.primary.length]? = some (s.tx.sample c n) := by
  have inRange : n % s.tx.buf.primary.length < (s.tx.buf.get c).length := by
    cases c with
    | primary => exact Nat.mod_lt _ (Nat.pos_of_ne_zero h.nonempty)
    | secondary => exact (Nat.mod_lt _ (Nat.pos_of_ne_zero h.nonempty)).trans_eq h.sameLength.symm
  rw [Tx.sample, List.getD_eq_getElem _ _ inRange, List.getElem?_eq_getElem inRange]

theorem State.Ready.enterSetup_eq {s : State} (h : s.Ready) {i : Nat} (hi : i ≤ 7) (n : Nat) {t : Tx}
    (buf : t.buf = s.tx.buf) :
    enterSetup s.cfg (n % s.tx.buf.primary.length) (BitVec.ofNat 3 i) t = some { t with
      i := BitVec.ofNat 3 i
      dout := ⟨(s.tx.sample .primary n).getLsbD i, (s.tx.sample .secondary n).getLsbD i⟩
      strobeOut := false, ph := .setup, tmr := s.cfg.tSetup } := by
  have read : ∀ c, txRead c (n % s.tx.buf.primary.length) t = some (s.tx.sample c n) := fun c => by
    rw [txRead, buf, h.getElem?_sample]
  have bit : (BitVec.ofNat 3 i).toNat = i := by simp; omega
  rw [enterSetup_of_read (read _) (read _), bit]

theorem State.Ready.gap_pos {s : State} (h : s.Ready) : 1 ≤ s.tx.period.toNat * s.cfg.ticksPerMs := by
  obtain ⟨_, _, _, _, _, perMs⟩ := h.legal
  exact Nat.mul_pos (Nat.pos_of_ne_zero fun h0 => h.periodSet (BitVec.eq_of_toNat_eq h0)) perMs

/-- The block at the start of SETUP of bit i of the n-th sample after a TX_START at s. -/
structure AtBit (s : State) (n i : Nat) (u : State) : Prop where
  cfg   : u.cfg = s.cfg
  tx    : u.tx = bitStart s n i
  lines : u.LinesLooped

theorem AtBit.of_driving {s u : State} (h : u.cfg = s.cfg) (n i : Nat) : AtBit s n i (u.driving (bitStart s n i)) :=
  ⟨(driving_cfg ..).trans h, driving_tx .., propagateIfLooped_linesLooped _⟩

theorem atBit_start (s : State) : AtBit s 0 0 (State.driving (s.respond .ok 0 []) (bitStart s 0 0)) :=
  .of_driving (respond_cfg s .ok 0 []) 0 0

/-- A TX_START that leaves the transmitter running passed its checks, and is at bit 0 of sample 0. -/
theorem ready_of_start {s t : State} (legal : s.cfg.Legal) (idle : s.tx.run = false) (h : exec .txStart s = .next t)
    (started : t.tx.run = true) : s.Ready ∧ t = State.driving (s.respond .ok 0 []) (bitStart s 0 0) := by
  rcases execTxStart_next h with ⟨st, _, _, rfl⟩ | ⟨hasTx, _, same, nonempty, period, u, setup, rfl⟩
  · simp [idle] at started
  · have ready : s.Ready := ⟨legal, hasTx, same, nonempty, period⟩
    have hu : some u = some (bitStart s 0 0) := setup.symm.trans
      (ready.enterSetup_eq (Nat.zero_le _) 0 (t := { s.tx with run := true, oe := true, k := 0 }) rfl)
    obtain rfl := Option.some.inj hu
    exact ⟨ready, rfl⟩

/-! ### The phases of a bit -/

/-- T_SETUP + T_PULSE + T_DEAD, the ticks of one bit: B of 40_transmitter.md R93. -/
def bitTicks (cfg : Config) : Nat := cfg.tSetup + cfg.tPulse + cfg.tDead

/-- PERIOD × TICKS_PER_MS, the ticks of the pause behind a sample: G of 40_transmitter.md R93. -/
def gapTicks (s : State) : Nat := s.tx.period.toNat * s.cfg.ticksPerMs

/-- u as PULSE is entered. -/
def State.inPulse (u : State) : State := u.driving (enterPulse u.cfg u.tx)

/-- u as DEAD is entered, after PULSE. -/
def State.inDead (u : State) : State := u.inPulse.driving (enterDead u.cfg (enterPulse u.cfg u.tx))

@[simp] theorem inPulse_cfg (u : State) : u.inPulse.cfg = u.cfg := driving_cfg ..

@[simp] theorem inPulse_tx (u : State) : u.inPulse.tx = enterPulse u.cfg u.tx := driving_tx ..

@[simp] theorem inDead_cfg (u : State) : u.inDead.cfg = u.cfg := (driving_cfg ..).trans (inPulse_cfg u)

@[simp] theorem inDead_tx (u : State) : u.inDead.tx = enterDead u.cfg (enterPulse u.cfg u.tx) := driving_tx ..

section Bit

variable {s u : State} {n i : Nat}

theorem AtBit.hasTx (h : AtBit s n i u) (ready : s.Ready) : u.cfg.hasTx = true := h.cfg ▸ ready.hasTx

theorem AtBit.run (h : AtBit s n i u) : u.tx.run = true := congrArg Tx.run h.tx

theorem AtBit.tmr (h : AtBit s n i u) : u.tx.tmr = s.cfg.tSetup := congrArg Tx.tmr h.tx

theorem AtBit.ticks_inPulse (h : AtBit s n i u) (ready : s.Ready) : ticks s.cfg.tSetup u = .next u.inPulse := by
  obtain ⟨_, _, setup, _⟩ := ready.legal
  have ph : u.tx.ph = .setup := congrArg Tx.ph h.tx
  exact ticks_phase (h.hasTx ready) h.run h.tmr setup (nextPhase_of_setup (t := { u.tx with tmr := 0 }) ph)

theorem AtBit.inPulse_tmr (h : AtBit s n i u) : u.inPulse.tx.tmr = s.cfg.tPulse := by
  rw [inPulse_tx, enterPulse_tmr, h.cfg]

theorem AtBit.inPulse_running (h : AtBit s n i u) (ready : s.Ready) :
    u.inPulse.cfg.hasTx = true ∧ u.inPulse.tx.run = true := by
  rw [inPulse_cfg, inPulse_tx, enterPulse_run]
  exact ⟨h.hasTx ready, h.run⟩

theorem AtBit.ticks_inDead (h : AtBit s n i u) (ready : s.Ready) : ticks s.cfg.tPulse u.inPulse = .next u.inDead := by
  obtain ⟨_, _, _, pulse, _⟩ := ready.legal
  obtain ⟨hasTx, run⟩ := h.inPulse_running ready
  refine ticks_phase hasTx run h.inPulse_tmr pulse ?_
  rw [inPulse_cfg, inPulse_tx]
  exact nextPhase_of_pulse rfl

/-- DEAD runs out into whatever follows it. -/
theorem AtBit.ticks_after (h : AtBit s n i u) (ready : s.Ready) {v : Tx}
    (next : nextPhase s.cfg { u.inDead.tx with tmr := 0 } = some v) :
    ticks (bitTicks s.cfg) u = .next (u.inDead.driving v) := by
  obtain ⟨_, _, _, _, dead, _⟩ := ready.legal
  refine ticks_trans (ticks_trans (h.ticks_inPulse ready) (h.ticks_inDead ready))
    (ticks_phase ?_ ?_ ?_ dead ?_)
  · rw [inDead_cfg, h.hasTx ready]
  · rw [inDead_tx, enterDead_run, enterPulse_run, h.run]
  · rw [inDead_tx, enterDead_tmr, h.cfg]
  · rw [inDead_cfg, h.cfg, next]

/-- The next bit of the same sample. -/
theorem AtBit.ticks_next (h : AtBit s n i u) (ready : s.Ready) (hi : i < 7) :
    ticks (bitTicks s.cfg) u = .next (u.inDead.driving (bitStart s n (i + 1))) := by
  refine h.ticks_after ready ?_
  have more : (BitVec.ofNat 3 i).toNat < 7 := by simp; omega
  have succ : BitVec.ofNat 3 i + 1 = BitVec.ofNat 3 (i + 1) := (BitVec.ofNat_add ..).symm
  rw [inDead_tx, h.tx, nextPhase_of_dead rfl more]
  simp only [enterDead_k, enterPulse_k, bitStart_k, enterDead_i, enterPulse_i, bitStart_i, succ]
  exact ready.enterSetup_eq hi n rfl

/-- After bit 7, the pause. -/
theorem AtBit.ticks_gap (h : AtBit s n 7 u) (ready : s.Ready) :
    ticks (bitTicks s.cfg) u = .next (u.inDead.driving (enterGap s.cfg u.inDead.tx)) := by
  refine h.ticks_after ready ?_
  rw [inDead_tx, h.tx]
  exact nextPhase_of_lastDead rfl rfl

/-- After the pause, bit 0 of the next sample. -/
theorem AtBit.ticks_nextSample (h : AtBit s n 7 u) (ready : s.Ready) :
    ticks (bitTicks s.cfg + gapTicks s) u =
      .next ((u.inDead.driving (enterGap s.cfg u.inDead.tx)).driving (bitStart s (n + 1) 0)) := by
  refine ticks_trans (h.ticks_gap ready) (ticks_phase ?_ ?_ ?_ ready.gap_pos ?_)
  · rw [driving_cfg, inDead_cfg, h.hasTx ready]
  · rw [driving_tx, inDead_tx, h.tx]
    rfl
  · rw [driving_tx, inDead_tx, h.tx]
    rfl
  · rw [driving_cfg, driving_tx, inDead_cfg, inDead_tx, h.cfg, h.tx, nextPhase_of_gap rfl]
    simp only [enterGap_k, enterDead_k, enterPulse_k, bitStart_k, enterGap_buf, enterDead_buf, enterPulse_buf, bitStart_buf,
      Both.get_primary, Nat.mod_add_mod]
    exact ready.enterSetup_eq (Nat.zero_le _) (n + 1) rfl

/-! Both ends of such a step are starts of bits. -/

theorem AtBit.cfg_inDead (h : AtBit s n i u) : u.inDead.cfg = s.cfg := (inDead_cfg u).trans h.cfg

theorem AtBit.next (h : AtBit s n i u) : AtBit s n (i + 1) (u.inDead.driving (bitStart s n (i + 1))) :=
  .of_driving h.cfg_inDead n (i + 1)

theorem AtBit.nextSample (h : AtBit s n 7 u) :
    AtBit s (n + 1) 0 ((u.inDead.driving (enterGap s.cfg u.inDead.tx)).driving (bitStart s (n + 1) 0)) :=
  .of_driving ((driving_cfg ..).trans h.cfg_inDead) (n + 1) 0

end Bit

/-! ### The induction over samples and bits -/

/-- What holds at bit 0 of sample 0, and goes from each bit to the next in B ticks and from bit 7 over the gap in B + G,
holds at every bit, at its tick. -/
theorem ticks_to_bit {B G : Nat} {t : State} {P : Nat → Nat → State → Prop} (start : P 0 0 t)
    (bit : ∀ n i u, i < 7 → P n i u → ∃ v, ticks B u = .next v ∧ P n (i + 1) v)
    (gap : ∀ n u, P n 7 u → ∃ v, ticks (B + G) u = .next v ∧ P (n + 1) 0 v) (n : Nat) {i : Nat} (hi : i ≤ 7) :
    ∃ u, ticks (n * (8 * B + G) + i * B) t = .next u ∧ P n i u := by
  have bits : ∀ n u, P n 0 u → ∀ i, i ≤ 7 → ∃ v, ticks (i * B) u = .next v ∧ P n i v := by
    intro n u hu i
    induction i with
    | zero => exact fun _ => ⟨u, by rw [Nat.zero_mul]; rfl, hu⟩
    | succ i ih =>
      intro hi
      obtain ⟨v, hv, pv⟩ := ih (by omega)
      obtain ⟨w, hw, pw⟩ := bit n i v hi pv
      exact ⟨w, Nat.succ_mul i B ▸ ticks_trans hv hw, pw⟩
  have samples : ∃ u, ticks (n * (8 * B + G)) t = .next u ∧ P n 0 u := by
    clear hi
    induction n with
    | zero => exact ⟨t, by rw [Nat.zero_mul]; rfl, start⟩
    | succ n ih =>
      obtain ⟨u, hu, pu⟩ := ih
      obtain ⟨v, hv, pv⟩ := bits n u pu 7 (Nat.le_refl 7)
      obtain ⟨w, hw, pw⟩ := gap n v pv
      have time : (n + 1) * (8 * B + G) = n * (8 * B + G) + (7 * B + (B + G)) := by ring
      exact ⟨w, time ▸ ticks_trans hu (ticks_trans hv hw), pw⟩
  obtain ⟨u, hu, pu⟩ := samples
  obtain ⟨v, hv, pv⟩ := bits n u pu i hi
  exact ⟨v, ticks_trans hu hv, pv⟩

theorem ticks_to_atBit {s t : State} (ready : s.Ready) (start : AtBit s 0 0 t) (n : Nat) {i : Nat} (hi : i ≤ 7) :
    ∃ u, ticks (n * (8 * bitTicks s.cfg + gapTicks s) + i * bitTicks s.cfg) t = .next u ∧ AtBit s n i u :=
  ticks_to_bit start
    (fun _ _ _ hi h => ⟨_, h.ticks_next ready hi, h.next⟩)
    (fun _ _ h => ⟨_, h.ticks_nextSample ready, h.nextSample⟩) n hi

/-- Settles O35: the ticks of the phases, from the start of the bit on. -/
theorem transmitterKeepsTheTimingLaw : Obligations.TransmitterKeepsTheTimingLaw := by
  rintro s t n i _ legal - idle h started rfl
  obtain ⟨ready, rfl⟩ := ready_of_start legal idle h started
  have hi : i.toNat ≤ 7 := by omega
  obtain ⟨u, hu, bit⟩ := ticks_to_atBit ready (atBit_start s) n hi
  have ⟨_, _, setup, pulse, _⟩ := legal
  have before : s.cfg.tSetup - 1 < u.tx.tmr := by rw [bit.tmr]; omega
  have high := ticks_trans hu (bit.ticks_inPulse ready)
  have low := ticks_trans hu (ticks_within (bit.hasTx ready) bit.run before)
  have inside : s.cfg.tPulse - 1 < u.inPulse.tx.tmr := by rw [bit.inPulse_tmr]; omega
  obtain ⟨hasTx, run⟩ := bit.inPulse_running ready
  have stillHigh := ticks_trans high (ticks_within hasTx run inside)
  rw [← Nat.add_sub_assoc setup] at low
  rw [← Nat.add_sub_assoc pulse] at stillHigh
  have lowAgain := ticks_trans high (bit.ticks_inDead ready)
  refine ⟨⟨u, hu, ?_⟩, ⟨_, low, ?_⟩, ⟨_, high, ?_⟩, ⟨_, stillHigh, ?_⟩, ⟨_, lowAgain, ?_⟩⟩
  · rw [bit.tx]
    exact ⟨BitVec.ofNat_toNat .., rfl, rfl, rfl, rfl, fun c => ⟨_, ready.getElem?_sample c n, bitStart_dout ..⟩⟩
  · exact congrArg Tx.strobeOut bit.tx
  · rw [inPulse_tx]
    exact ⟨rfl, rfl⟩
  · exact congrArg Tx.strobeOut (inPulse_tx u)
  · rw [inDead_tx]
    exact ⟨rfl, rfl⟩

end Sys2Proof.Machine

/-! ## Proofs: the loopback round trip (40_transmitter.md R95)

What the receiver holds at the start of a bit, the rising edge that takes it to the next, and the timing law's induction
over both ends of the line. -/

namespace Sys2Proof.Machine

open Sys2Proof

/-! ### EDGE at a known position (41_edge_decoder.md R102) -/

theorem edge_q_of_lt {cap : Nat} {r : Rx} {c : Channel} (h : (r.pos.get c).toNat < 7) :
    (edge cap r).q.get c = r.q.get c := by
  rw [(edge_get c r).2.2.1, edgeChannel_of_lt h, rx_setAcc_q]

theorem edge_q_of_last {cap : Nat} {r : Rx} {c : Channel} (h : (r.pos.get c).toNat = 7)
    (room : (r.q.get c).length < cap) : (edge cap r).q.get c = r.q.get c ++ [accumulated c r] := by
  rw [(edge_get c r).2.2.1, edgeChannel_of_eq h, rx_setAcc_q, emit_of_room room, Both.get_set_same]

/-- The bits of b below i, and 0 from i up: what ACC holds after i bits. -/
def firstBits (i : Nat) (b : Byte) : Byte := (b.setWidth i).setWidth 8

@[simp] theorem getLsbD_firstBits (i : Nat) (b : Byte) (j : Nat) :
    (firstBits i b).getLsbD j = (decide (j < i) && b.getLsbD j) := by
  by_cases hj : j < 8
  · simp [firstBits, hj]
  · rw [BitVec.getLsbD_of_ge _ _ (Nat.le_of_not_lt hj), BitVec.getLsbD_of_ge _ _ (Nat.le_of_not_lt hj), Bool.and_false]

theorem firstBits_eight (b : Byte) : firstBits 8 b = b := BitVec.setWidth_eq _

/-- One more bit, ORed in at position i (41_edge_decoder.md R102). -/
theorem accumulated_eq_firstBits {c : Channel} {r : Rx} {i : Nat} {b : Byte} (pos : (r.pos.get c).toNat = i)
    (acc : r.acc.get c = firstBits i b) (din : r.din.get c = b.getLsbD i) : accumulated c r = firstBits (i + 1) b := by
  refine BitVec.eq_of_getLsbD_eq fun j hj => ?_
  rcases Nat.lt_trichotomy j i with below | rfl | above
  · simp [accumulated, pos, acc, below, Nat.lt_succ_of_lt below]
  · simp only [accumulated, BitVec.getLsbD_or, BitVec.getLsbD_shiftLeft, pos, acc, getLsbD_firstBits, din]
    simp [hj]
  · rw [accumulated_getLsbD_of_gt c r (pos.trans_lt above), acc, getLsbD_firstBits, getLsbD_firstBits,
      decide_eq_false above.not_gt, decide_eq_false (by omega)]

/-! ### The receiver at the start of a bit -/

/-- Before bit i of the n-th sample: i bits of that sample in each accumulator, and the samples before it behind what the
queues held when TX_START was issued at s. -/
structure Received (s : State) (n i : Nat) (r : Rx) : Prop where
  pos : ∀ c, r.pos.get c = BitVec.ofNat 3 i
  acc : ∀ c, r.acc.get c = firstBits i (s.tx.sample c n)
  q   : ∀ c, r.q.get c = s.rx.q.get c ++ (List.range n).map (s.tx.sample c)

section Reception

variable {s u : State} {n i : Nat} {r : Rx}

/-- The levels of the lines play no part. -/
theorem Received.at_levels (h : Received s n i r) (din : Both Level) (strobe : Level) :
    Received s n i { r with din := din, strobeIn := strobe } := ⟨h.pos, h.acc, h.q⟩

theorem Received.pos_toNat (h : Received s n i r) (hi : i ≤ 7) (c : Channel) : (r.pos.get c).toNat = i := by
  rw [h.pos, BitVec.toNat_ofNat]
  omega

/-- The rising edge of bit i, with the data lines at that bit. -/
theorem Received.after_edge {cap : Nat} (h : Received s n i r) (hi : i < 7)
    (din : ∀ c, r.din.get c = (s.tx.sample c n).getLsbD i) : Received s n (i + 1) (edge cap r) := by
  have pos := h.pos_toNat hi.le
  refine ⟨fun c => ?_, fun c => ?_, fun c => ?_⟩
  · rw [edge_pos, h.pos, BitVec.ofNat_add]
    rfl
  · rw [edge_acc, if_neg (by have := pos c; omega), accumulated_eq_firstBits (pos c) (h.acc c) (din c)]
  · rw [edge_q_of_lt ((pos c).trans_lt hi), h.q]

/-- The last rising edge of a sample appends it, where the queues have room. -/
theorem Received.after_lastEdge {cap : Nat} (h : Received s n 7 r) (din : ∀ c, r.din.get c = (s.tx.sample c n).getLsbD 7)
    (room : ∀ c, (s.rx.q.get c).length + n < cap) : Received s (n + 1) 0 (edge cap r) := by
  have pos := h.pos_toNat (Nat.le_refl 7)
  refine ⟨fun c => ?_, fun c => ?_, fun c => ?_⟩
  · rw [edge_pos, h.pos]
    rfl
  · rw [edge_acc, if_pos (pos c)]
    exact BitVec.eq_of_getLsbD_eq fun j _ => by simp
  · have fits : (r.q.get c).length < cap := by
      rw [h.q, List.length_append, List.length_map, List.length_range]
      exact room c
    rw [edge_q_of_last (pos c) fits, accumulated_eq_firstBits (pos c) (h.acc c) (din c), firstBits_eight, h.q,
      List.range_succ, List.map_append, List.append_assoc]
    rfl

/-! ### The wiring under LOOPBACK -/

theorem driving_rx {t : Tx} (loop : u.cfg.loopback = true) :
    (u.driving t).rx = propagate u.cfg.cap t.dout t.strobeOut u.rx := by
  rw [driving_eq]
  exact if_pos loop

/-- A phase entry with the strobe low makes no edge. -/
theorem Received.driving_low {t : Tx} (h : Received s n i u.rx) (loop : u.cfg.loopback = true)
    (low : t.strobeOut = false) : Received s n i (u.driving t).rx := by
  rw [driving_rx loop, propagate_of_no_rise (by simp [low])]
  exact h.at_levels _ _

/-- Entering PULSE is the rising edge, with the data lines at the bit. -/
theorem AtBit.inPulse_rx (h : AtBit s n i u) (loop : s.cfg.loopback = true) :
    u.inPulse.rx = { edge s.cfg.cap { u.rx with din := u.tx.dout } with strobeIn := true } := by
  have looped : u.cfg.loopback = true := h.cfg ▸ loop
  have driven : u.tx.oe = true := congrArg Tx.oe h.tx
  have low : u.tx.strobeOut = false := congrArg Tx.strobeOut h.tx
  obtain ⟨_, lines⟩ := h.lines looped driven
  rw [State.inPulse, driving_rx looped, propagate_of_rise ⟨lines.trans low, enterPulse_strobeOut ..⟩, h.cfg,
    enterPulse_dout]

theorem AtBit.dout_get (h : AtBit s n i u) (c : Channel) : u.tx.dout.get c = (s.tx.sample c n).getLsbD i := by
  rw [h.tx, bitStart_dout]

theorem AtBit.received_inPulse (h : AtBit s n i u) (loop : s.cfg.loopback = true) (hi : i < 7)
    (before : Received s n i u.rx) : Received s n (i + 1) u.inPulse.rx := by
  rw [h.inPulse_rx loop]
  exact ((before.at_levels u.tx.dout u.rx.strobeIn).after_edge hi h.dout_get).at_levels _ _

theorem AtBit.received_inPulse_last (h : AtBit s n 7 u) (loop : s.cfg.loopback = true)
    (room : ∀ c, (s.rx.q.get c).length + n < s.cfg.cap) (before : Received s n 7 u.rx) :
    Received s (n + 1) 0 u.inPulse.rx := by
  rw [h.inPulse_rx loop]
  exact ((before.at_levels u.tx.dout u.rx.strobeIn).after_lastEdge h.dout_get room).at_levels _ _

theorem AtBit.received_inDead (h : AtBit s n i u) (loop : s.cfg.loopback = true) {m j : Nat}
    (pulse : Received s m j u.inPulse.rx) : Received s m j u.inDead.rx :=
  pulse.driving_low (by rw [inPulse_cfg, h.cfg, loop]) rfl

theorem AtBit.received_next (h : AtBit s n i u) (loop : s.cfg.loopback = true) (hi : i < 7)
    (before : Received s n i u.rx) : Received s n (i + 1) (u.inDead.driving (bitStart s n (i + 1))).rx :=
  (h.received_inDead loop (h.received_inPulse loop hi before)).driving_low (by rw [h.cfg_inDead, loop]) rfl

theorem AtBit.received_nextSample (h : AtBit s n 7 u) (loop : s.cfg.loopback = true)
    (room : ∀ c, (s.rx.q.get c).length + n < s.cfg.cap) (before : Received s n 7 u.rx) :
    Received s (n + 1) 0 ((u.inDead.driving (enterGap s.cfg u.inDead.tx)).driving (bitStart s (n + 1) 0)).rx := by
  have dead := h.received_inDead loop (h.received_inPulse_last loop room before)
  have gap := dead.driving_low (t := enterGap s.cfg u.inDead.tx) (by rw [h.cfg_inDead, loop]) (by rw [inDead_tx]; rfl)
  exact gap.driving_low (by rw [driving_cfg, h.cfg_inDead, loop]) rfl

end Reception

/-! ### The round trip -/

/-- The timing law and the receiver together: up to sample n, for which the queues have room, each bit is received. -/
theorem ticks_to_received {s t : State} (ready : s.Ready) (loop : s.cfg.loopback = true) (start : AtBit s 0 0 t)
    (clear : Received s 0 0 t.rx) {n : Nat} (room : ∀ c, (s.rx.q.get c).length + n < s.cfg.cap) {i : Nat} (hi : i ≤ 7) :
    ∃ u, ticks (n * (8 * bitTicks s.cfg + gapTicks s) + i * bitTicks s.cfg) t = .next u ∧ AtBit s n i u ∧
      Received s n i u.rx := by
  obtain ⟨u, hu, bit, received⟩ := ticks_to_bit (P := fun m i u => AtBit s m i u ∧ (m ≤ n → Received s m i u.rx))
    ⟨start, fun _ => clear⟩
    (fun m i u hi ⟨bit, received⟩ =>
      ⟨_, bit.ticks_next ready hi, bit.next, fun hm => bit.received_next loop hi (received hm)⟩)
    (fun m u ⟨bit, received⟩ => ⟨_, bit.ticks_nextSample ready, bit.nextSample, fun hm =>
      bit.received_nextSample loop (fun c => (Nat.add_le_add_left (Nat.le_of_succ_le hm) _).trans_lt (room c))
        (received (Nat.le_of_succ_le hm))⟩)
    n hi
  exact ⟨u, hu, bit, received (Nat.le_refl n)⟩

/-- Settles O36: at the last edge of sample n the queues hold the samples 0 to n. -/
theorem loopbackRoundTrip : Obligations.LoopbackRoundTrip := by
  intro s t n legal loop _ idle pos acc h started room
  obtain ⟨ready, rfl⟩ := ready_of_start legal idle h started
  have clear : Received s 0 0 s.rx := by
    refine ⟨fun c => ?_, fun c => ?_, fun c => (List.append_nil _).symm⟩
    · rw [pos]
      cases c <;> rfl
    · rw [acc]
      exact BitVec.eq_of_getLsbD_eq fun j _ => by cases c <;> simp
  have first : Received s 0 0 (State.driving (s.respond .ok 0 []) (bitStart s 0 0)).rx :=
    Received.driving_low (u := s.respond .ok 0 []) clear loop rfl
  obtain ⟨u, hu, bit, received⟩ := ticks_to_received ready loop (atBit_start s) first room
    (Nat.le_refl 7)
  have sent := bit.received_inPulse_last loop room received
  refine ⟨_, ticks_trans hu (bit.ticks_inPulse ready), fun c => ⟨_, sent.q c, by simp, fun m hm => ?_⟩⟩
  rw [ready.getElem?_sample, List.getElem?_map, List.getElem?_range (Nat.lt_succ_of_le hm)]
  rfl

end Sys2Proof.Machine

/-! ## Proofs: line events and the decoder (41_edge_decoder.md)

SET_DIN and SET_STROBE, and what EDGE leaves in each field of a channel; the next state of a rising edge and the
independence of the channels follow. Then what a run of EDGE lines leaves in the receiver, for any bytes whose bits it
presents: one induction, from which byte assembly, the two other bit orders and conservation follow. -/

namespace Sys2Proof.Machine

open Sys2Proof

/-! ### SET_DIN and SET_STROBE (41_edge_decoder.md R100, R101; 40_transmitter.md R96) -/

theorem exec_setDin {s : State} (notLooped : s.cfg.loopback = false) (ch : Channel) (v : Level) :
    exec (.setDin ch v) s = .next { s with rx := s.rx.setDin ch v } :=
  if_neg (Bool.eq_false_iff.mp notLooped)

theorem exec_setDin_of_looped {s : State} (looped : s.cfg.loopback = true) (ch : Channel) (v : Level) :
    exec (.setDin ch v) s = .refused .lineDrivenByLoopback := if_pos looped

theorem exec_setStrobe {s : State} (notLooped : s.cfg.loopback = false) (v : Level) :
    exec (.setStrobe v) s = .next { s with rx := setStrobe s.cfg.cap v s.rx } :=
  if_neg (Bool.eq_false_iff.mp notLooped)

theorem exec_setStrobe_of_looped {s : State} (looped : s.cfg.loopback = true) (v : Level) :
    exec (.setStrobe v) s = .refused .lineDrivenByLoopback := if_pos looped

/-- Settles O11. -/
theorem setDinWritesOneLevel : Obligations.SetDinWritesOneLevel :=
  fun ch v _ => ⟨fun notLooped => exec_setDin notLooped ch v, fun looped => exec_setDin_of_looped looped ch v⟩

/-- Settles O12: without a rise SET_STROBE runs no EDGE. -/
theorem setStrobeWithoutARiseOnlyRecords : Obligations.SetStrobeWithoutARiseOnlyRecords := by
  intro v s
  refine ⟨fun notLooped level => ?_, fun looped => exec_setStrobe_of_looped looped v⟩
  have noRise : ¬ (s.rx.strobeIn = false ∧ v = true) := by
    rintro ⟨low, rfl⟩
    simp [low] at level
  rw [exec_setStrobe notLooped, setStrobe_of_no_rise noRise]

/-! ### The queue and the drop counter after EDGE (41_edge_decoder.md R102) -/

theorem edge_q_eq (cap : Nat) (r : Rx) (c : Channel) : (edge cap r).q.get c =
    if (r.pos.get c).toNat = 7 ∧ (r.q.get c).length < cap then r.q.get c ++ [accumulated c r] else r.q.get c := by
  split
  · rename_i appends
    exact edge_q_of_last appends.1 appends.2
  · rename_i noAppend
    rcases Nat.lt_or_ge (r.pos.get c).toNat 7 with before | last
    · exact edge_q_of_lt before
    · have last : (r.pos.get c).toNat = 7 := by omega
      have full : cap ≤ (r.q.get c).length := Nat.not_lt.mp fun room => noAppend ⟨last, room⟩
      rw [(edge_get c r).2.2.1, edgeChannel_of_eq last, emit_of_full full, rx_setAcc_q, rx_countDrop_q]

theorem edge_dropCnt (cap : Nat) (r : Rx) (c : Channel) : (edge cap r).dropCnt.get c =
    if (r.pos.get c).toNat = 7 ∧ cap ≤ (r.q.get c).length then r.dropCnt.get c + 1 else r.dropCnt.get c := by
  rw [(edge_get c r).2.2.2]
  rcases Nat.lt_or_ge (r.pos.get c).toNat 7 with before | last
  · rw [edgeChannel_of_lt before, rx_setAcc_dropCnt, if_neg fun h => before.ne h.1]
  · have last : (r.pos.get c).toNat = 7 := by omega
    rw [edgeChannel_of_eq last, rx_setAcc_dropCnt]
    rcases Nat.lt_or_ge (r.q.get c).length cap with room | full
    · rw [emit_of_room room, if_neg fun h => room.not_ge h.2]
    · rw [emit_of_full full, rx_countDrop_dropCnt, Both.get_set_same, if_pos ⟨last, full⟩]

/-- Settles O13, by the equations of EDGE's fields. -/
theorem risingStrobeSamplesBothChannels : Obligations.RisingStrobeSamplesBothChannels := by
  intro s notLooped low
  obtain ⟨din, _, sel, port, edgeCnt⟩ := edge_other s.cfg.cap s.rx
  refine ⟨{ edge s.cfg.cap s.rx with strobeIn := true }, ?_, din, sel, port, rfl, ?_, ?_⟩
  · rw [exec_setStrobe notLooped, setStrobe_of_rise ⟨low, rfl⟩]
  · rw [edgeCnt, BitVec.toNat_add]
    rfl
  rintro c a rfl
  simp only [edge_acc, edge_pos, edge_q_eq, edge_dropCnt]
  refine ⟨fun before => ?_, fun last room => ?_, fun last full => ?_⟩
  · have advances : (s.rx.pos.get c + 1).toNat = (s.rx.pos.get c).toNat + 1 := by bv_omega
    rw [if_neg before.ne, if_neg fun h => before.ne h.1, if_neg fun h => before.ne h.1]
    exact ⟨rfl, advances, rfl, rfl⟩
  · have wraps : s.rx.pos.get c + 1 = 0 := by bv_omega
    rw [if_pos last, if_pos ⟨last, room⟩, if_neg fun h => room.not_ge h.2]
    exact ⟨rfl, wraps, rfl, rfl⟩
  · have wraps : s.rx.pos.get c + 1 = 0 := by bv_omega
    rw [if_pos last, if_neg fun h => full.not_gt h.2, if_pos ⟨last, full⟩]
    exact ⟨rfl, wraps, rfl, BitVec.toNat_add ..⟩

/-! ### One channel alone (41_edge_decoder.md R111) -/

/-- Two receivers that hold the same for channel c. -/
structure Rx.SameChannel (c : Channel) (x y : Rx) : Prop where
  din     : x.din.get c = y.din.get c
  acc     : x.acc.get c = y.acc.get c
  pos     : x.pos.get c = y.pos.get c
  q       : x.q.get c = y.q.get c
  dropCnt : x.dropCnt.get c = y.dropCnt.get c

theorem Rx.SameChannel.edge {c : Channel} {x y : Rx} (h : x.SameChannel c y) (cap : Nat) :
    (edge cap x).SameChannel c (edge cap y) := by
  obtain ⟨dinX, _⟩ := edge_other cap x
  obtain ⟨dinY, _⟩ := edge_other cap y
  have bit : accumulated c x = accumulated c y := by rw [accumulated, accumulated, h.acc, h.din, h.pos]
  exact {
    din := by rw [dinX, dinY, h.din]
    acc := by rw [edge_acc, edge_acc, h.pos, bit]
    pos := by rw [edge_pos, edge_pos, h.pos]
    q := by rw [edge_q_eq, edge_q_eq, h.pos, h.q, bit]
    dropCnt := by rw [edge_dropCnt, edge_dropCnt, h.pos, h.q, h.dropCnt] }

theorem Rx.SameChannel.setStrobe {c : Channel} {x y : Rx} (h : x.SameChannel c y) (level : x.strobeIn = y.strobeIn)
    (cap : Nat) (v : Level) : (setStrobe cap v x).SameChannel c (setStrobe cap v y) := by
  by_cases rise : x.strobeIn = false ∧ v = true
  · rw [setStrobe_of_rise rise, setStrobe_of_rise (level ▸ rise)]
    obtain ⟨din, acc, pos, q, dropCnt⟩ := h.edge cap
    exact ⟨din, acc, pos, q, dropCnt⟩
  · rw [setStrobe_of_no_rise rise, setStrobe_of_no_rise (level ▸ rise)]
    exact ⟨h.din, h.acc, h.pos, h.q, h.dropCnt⟩

/-- Settles O18: EDGE writes a channel from what that channel holds. -/
theorem channelsAreIndependent : Obligations.ChannelsAreIndependent := by
  intro c v s s' t t' cfg level din acc pos q dropCnt h h'
  cases hl : s.cfg.loopback with
  | true =>
    rw [exec_setStrobe_of_looped hl] at h
    cases h
  | false =>
    rw [exec_setStrobe hl] at h
    rw [exec_setStrobe (cfg ▸ hl), ← cfg] at h'
    cases h
    cases h'
    have same := Rx.SameChannel.setStrobe ⟨din, acc, pos, q, dropCnt⟩ level s.cfg.cap v
    exact ⟨same.acc, same.pos, same.q, same.dropCnt⟩

/-! ### The positions count the edges (41_edge_decoder.md R106) -/

theorem rxReset_posCounts (r : Rx) : (rxReset r).PosCounts :=
  Rx.SameDecoder.posCounts ⟨rfl, rfl, rfl⟩ powerOn_posCounts

/-- Settles O42: EDGE advances both, and 8 divides 2^32. -/
theorem positionCountsTheEdges : Obligations.PositionCountsTheEdges := by
  refine ⟨fun _ => powerOn_posCounts, fun s t h => ?_, fun _ _ hs h => (step_rx h).posCounts hs⟩
  cases h
  exact rxReset_posCounts s.rx

/-! ### A run of EDGE lines (30_encoding.md R77) -/

/-- The receiver after one line `EDGE b0, b1`, whatever level the strobe had. -/
def Rx.sample (cap : Nat) (r : Rx) (b : Both Level) : Rx :=
  { edge cap { r with din := b, strobeIn := false } with strobeIn := true }

/-- The instructions of one EDGE line for each pair of levels. -/
def edgeLines (bs : List (Both Level)) : List Instr :=
  bs.flatMap fun b => edgeInstrs b.primary b.secondary

theorem execAll_edgeInstrs {s : State} (notLooped : s.cfg.loopback = false) (b : Both Level) :
    execAll (edgeInstrs b.primary b.secondary) s = .next { s with rx := s.rx.sample s.cfg.cap b } := by
  have low : setStrobe s.cfg.cap false ((s.rx.setDin .primary b.primary).setDin .secondary b.secondary) =
      { s.rx with din := b, strobeIn := false } := setStrobe_of_no_rise nofun
  have rise : setStrobe s.cfg.cap true { s.rx with din := b, strobeIn := false } = s.rx.sample s.cfg.cap b :=
    setStrobe_of_rise ⟨rfl, rfl⟩
  simp only [edgeInstrs, execAll, exec_setDin, exec_setStrobe, notLooped, low, rise]

theorem execAll_edgeLines {s : State} (notLooped : s.cfg.loopback = false) (bs : List (Both Level)) :
    execAll (edgeLines bs) s = .next { s with rx := bs.foldl (Rx.sample s.cfg.cap) s.rx } := by
  induction bs generalizing s with
  | nil => rfl
  | cons b bs ih =>
    rw [edgeLines, List.flatMap_cons, execAll_append, execAll_edgeInstrs notLooped]
    exact ih (s := { s with rx := s.rx.sample s.cfg.cap b }) notLooped

section Sample

variable {cap : Nat} {r : Rx} {b : Both Level} {c : Channel}

@[simp] theorem sample_din : (r.sample cap b).din = b := by
  obtain ⟨din, _⟩ := edge_other cap { r with din := b, strobeIn := false }
  exact din

@[simp] theorem sample_strobeIn : (r.sample cap b).strobeIn = true := rfl

@[simp] theorem sample_sel : (r.sample cap b).sel = r.sel := by
  obtain ⟨_, _, sel, _, _⟩ := edge_other cap { r with din := b, strobeIn := false }
  exact sel

@[simp] theorem sample_port : (r.sample cap b).port = r.port := by
  obtain ⟨_, _, _, port, _⟩ := edge_other cap { r with din := b, strobeIn := false }
  exact port

@[simp] theorem sample_edgeCnt : (r.sample cap b).edgeCnt = r.edgeCnt + 1 := by
  obtain ⟨_, _, _, _, edgeCnt⟩ := edge_other cap { r with din := b, strobeIn := false }
  exact edgeCnt

@[simp] theorem sample_pos : (r.sample cap b).pos.get c = r.pos.get c + 1 := edge_pos ..

theorem sample_dropCnt : (r.sample cap b).dropCnt.get c =
    if (r.pos.get c).toNat = 7 ∧ cap ≤ (r.q.get c).length then r.dropCnt.get c + 1 else r.dropCnt.get c :=
  edge_dropCnt ..

/-- The accumulator and the queue, where the levels sampled since the last emission are the low bits of a byte x. -/
theorem sample_acc {i : Nat} {x : Byte} (pos : (r.pos.get c).toNat = i) (acc : r.acc.get c = firstBits i x)
    (bit : b.get c = x.getLsbD i) : (r.sample cap b).acc.get c = if i = 7 then 0 else firstBits (i + 1) x := by
  rw [← accumulated_eq_firstBits (r := { r with din := b, strobeIn := false }) pos acc bit, ← pos]
  exact edge_acc ..

theorem sample_q {i : Nat} {x : Byte} (pos : (r.pos.get c).toNat = i) (acc : r.acc.get c = firstBits i x)
    (bit : b.get c = x.getLsbD i) : (r.sample cap b).q.get c =
      if i = 7 ∧ (r.q.get c).length < cap then r.q.get c ++ [firstBits (i + 1) x] else r.q.get c := by
  rw [← accumulated_eq_firstBits (r := { r with din := b, strobeIn := false }) pos acc bit, ← pos]
  exact edge_q_eq ..

end Sample

/-! ### Bytes presented by edges (41_edge_decoder.md R103, R104, R107) -/

/-- Edge e presents bit e mod 8 of the byte numbered e / 8, least-significant bit first, on each channel. -/
def Presents (x : Channel → Nat → Byte) (bs : List (Both Level)) : Prop :=
  ∀ c e, e < bs.length → bs[e]?.map (·.get c) = some ((x c (e / 8)).getLsbD (e % 8))

/-- The last edge, apart from those before it. -/
theorem Presents.of_concat {x : Channel → Nat → Byte} {bs : List (Both Level)} {b : Both Level}
    (h : Presents x (bs ++ [b])) :
    Presents x bs ∧ ∀ c, b.get c = (x c (bs.length / 8)).getLsbD (bs.length % 8) := by
  refine ⟨fun c e he => ?_, fun c => ?_⟩
  · have init := h c e (by rw [List.length_append]; omega)
    rwa [List.getElem?_append_left he] at init
  · simpa using h c bs.length (by simp)

/-- The receiver after e edges from a receiver r0 at position 0: e / 8 bytes emitted, of which the first that fit are queued
and the others counted, and the bits of the next byte so far in the accumulator. -/
structure Assembled (cap : Nat) (x : Channel → Nat → Byte) (r0 : Rx) (e : Nat) (r : Rx) : Prop where
  sel     : r.sel = r0.sel
  port    : r.port = r0.port
  edgeCnt : r.edgeCnt = r0.edgeCnt + BitVec.ofNat 32 e
  pos     : ∀ c, r.pos.get c = BitVec.ofNat 3 e
  acc     : ∀ c, r.acc.get c = firstBits (e % 8) (x c (e / 8))
  q       : ∀ c, r.q.get c = r0.q.get c ++ (List.range (min (e / 8) (cap - (r0.q.get c).length))).map (x c)
  dropCnt : ∀ c, r.dropCnt.get c = r0.dropCnt.get c + BitVec.ofNat 32 (e / 8 - (cap - (r0.q.get c).length))

theorem firstBits_zero (x : Byte) : firstBits 0 x = 0 :=
  BitVec.eq_of_getLsbD_eq fun j _ => by simp

theorem assembled_zero {cap : Nat} {x : Channel → Nat → Byte} {r : Rx} (pos : r.pos = Both.same 0)
    (acc : r.acc = Both.same 0) : Assembled cap x r 0 r where
  sel := rfl
  port := rfl
  edgeCnt := by simp
  pos c := by simp [pos]
  acc c := by simp [acc, firstBits_zero]
  q c := by simp
  dropCnt c := by simp

section Assembly

variable {cap e : Nat} {x : Channel → Nat → Byte} {r0 r : Rx} {b : Both Level}

theorem Assembled.pos_toNat (h : Assembled cap x r0 e r) (c : Channel) : (r.pos.get c).toNat = e % 8 := by
  rw [h.pos, BitVec.toNat_ofNat]

theorem Assembled.q_length (h : Assembled cap x r0 e r) (c : Channel) :
    (r.q.get c).length = (r0.q.get c).length + min (e / 8) (cap - (r0.q.get c).length) := by
  rw [h.q, List.length_append, List.length_map, List.length_range]

theorem Assembled.sample (h : Assembled cap x r0 e r) (bits : ∀ c, b.get c = (x c (e / 8)).getLsbD (e % 8)) :
    Assembled cap x r0 (e + 1) (r.sample cap b) := by
  refine ⟨sample_sel.trans h.sel, sample_port.trans h.port, ?_, fun c => ?_, fun c => ?_, fun c => ?_, fun c => ?_⟩
  · rw [sample_edgeCnt, h.edgeCnt, BitVec.ofNat_add, BitVec.add_assoc]
    rfl
  · rw [sample_pos, h.pos, BitVec.ofNat_add]
    rfl
  · rw [sample_acc (h.pos_toNat c) (h.acc c) (bits c)]
    split
    · rw [show (e + 1) % 8 = 0 by omega, firstBits_zero]
    · rw [show (e + 1) % 8 = e % 8 + 1 by omega, show (e + 1) / 8 = e / 8 by omega]
  · rw [sample_q (h.pos_toNat c) (h.acc c) (bits c), h.q_length, h.q]
    split
    · rename_i appends
      obtain ⟨last, room⟩ := appends
      have before : min (e / 8) (cap - (r0.q.get c).length) = e / 8 := by omega
      have after : min ((e + 1) / 8) (cap - (r0.q.get c).length) = e / 8 + 1 := by omega
      rw [before, after, last, firstBits_eight, List.range_succ, List.map_append, List.append_assoc]
      rfl
    · rw [show min ((e + 1) / 8) (cap - (r0.q.get c).length) = min (e / 8) (cap - (r0.q.get c).length) by omega]
  · rw [sample_dropCnt, h.pos_toNat, h.q_length, h.dropCnt]
    split
    · rw [show (e + 1) / 8 - (cap - (r0.q.get c).length) = e / 8 - (cap - (r0.q.get c).length) + 1 by omega,
        BitVec.ofNat_add, BitVec.add_assoc]
      rfl
    · rw [show (e + 1) / 8 - (cap - (r0.q.get c).length) = e / 8 - (cap - (r0.q.get c).length) by omega]

/-- A run of edges assembles the bytes it presents. -/
theorem assembled_foldl (pos : r0.pos = Both.same 0) (acc : r0.acc = Both.same 0) {bs : List (Both Level)}
    (h : Presents x bs) : Assembled cap x r0 bs.length (bs.foldl (Rx.sample cap) r0) := by
  induction bs using List.reverseRecOn with
  | nil => exact assembled_zero pos acc
  | append_singleton bs b ih =>
    obtain ⟨init, last⟩ := h.of_concat
    rw [List.foldl_concat, List.length_append]
    exact (ih init).sample last

end Assembly

/-! ### Any number of edges from power-on (41_edge_decoder.md R104, R107) -/

/-- The m-th byte that the levels bs present on channel c. -/
def presentedByte (bs : List (Both Level)) (c : Channel) (m : Nat) : Byte :=
  BitVec.ofFnLE fun i => (bs[8 * m + i]?.map (·.get c)).getD false

theorem getLsbD_presentedByte {bs : List (Both Level)} (c : Channel) {m i : Nat} (hi : i < 8)
    (inside : 8 * m + i < bs.length) :
    bs[8 * m + i]?.map (·.get c) = some ((presentedByte bs c m).getLsbD i) := by
  rw [presentedByte, BitVec.getLsbD_eq_getElem hi, BitVec.getElem_ofFnLE]
  simp [List.getElem?_eq_getElem inside]

theorem presents_presentedByte (bs : List (Both Level)) : Presents (presentedByte bs) bs := by
  intro c e he
  have divMod : 8 * (e / 8) + e % 8 = e := Nat.div_add_mod e 8
  have bit := getLsbD_presentedByte (bs := bs) c (m := e / 8) (Nat.mod_lt e (by decide)) (divMod.symm ▸ he)
  rwa [divMod] at bit

theorem powerOn_edgeCnt : Rx.powerOn.edgeCnt = 0#32 := rfl

theorem powerOn_q (c : Channel) : Rx.powerOn.q.get c = [] := Both.get_same ..

theorem powerOn_dropCnt (c : Channel) : Rx.powerOn.dropCnt.get c = 0#32 := Both.get_same ..

/-- Settles O17: what the edges have assembled, counted from empty queues. -/
theorem everyEmittedByteIsQueuedOrCounted : Obligations.EveryEmittedByteIsQueuedOrCounted := by
  intro cfg bs notLooped
  have run := execAll_edgeLines (s := State.powerOn cfg) notLooped bs
  obtain ⟨_, _, edgeCnt, _, _, q, dropCnt⟩ :=
    assembled_foldl (cap := cfg.cap) (r0 := Rx.powerOn) rfl rfl (presents_presentedByte bs)
  simp only [powerOn_q, powerOn_edgeCnt, powerOn_dropCnt, List.nil_append, List.length_nil, Nat.sub_zero,
    BitVec.zero_add] at edgeCnt q dropCnt
  refine ⟨_, run, (congrArg BitVec.toNat edgeCnt).trans (BitVec.toNat_ofNat ..), fun c => ⟨?_, fun m hm => ?_, ?_⟩⟩
  · refine (congrArg List.length (q c)).trans ?_
    rw [List.length_map, List.length_range, Nat.min_comm]
  · refine ⟨presentedByte bs c m, (congrArg (·[m]?) (q c)).trans ?_, fun i hi =>
      getLsbD_presentedByte c hi (by omega)⟩
    rw [List.getElem?_map, List.getElem?_range (Nat.min_comm .. ▸ hm), Option.map_some]
  · exact (congrArg BitVec.toNat (dropCnt c)).trans (BitVec.toNat_ofNat ..)

/-! ### Eight edges (41_edge_decoder.md R103, R105, R110) -/

theorem Rx.eq_of_fields {r y : Rx} (din : r.din = y.din) (strobeIn : r.strobeIn = y.strobeIn) (acc : r.acc = y.acc)
    (pos : r.pos = y.pos) (q : r.q = y.q) (sel : r.sel = y.sel) (edgeCnt : r.edgeCnt = y.edgeCnt)
    (dropCnt : r.dropCnt = y.dropCnt) (port : r.port = y.port) : r = y := by
  cases r
  cases y
  simp_all only

/-- The eight pairs of levels that present the bytes x.primary and x.secondary, least-significant bit first. -/
def bitPairs (x : Both Byte) : List (Both Level) :=
  (List.range 8).map fun i => ⟨x.primary.getLsbD i, x.secondary.getLsbD i⟩

theorem presents_bitPairs (x : Both Byte) : Presents (fun c _ => x.get c) (bitPairs x) := by
  intro c e he
  have inside : e < 8 := by simpa [bitPairs] using he
  rw [bitPairs, List.getElem?_map, List.getElem?_range inside, Nat.mod_eq_of_lt inside]
  cases c <;> rfl

theorem foldl_bitPairs_last (cap : Nat) (r : Rx) (x : Both Byte) :
    ∃ r' : Rx, (bitPairs x).foldl (Rx.sample cap) r = r'.sample cap ⟨x.primary.getLsbD 7, x.secondary.getLsbD 7⟩ :=
  ⟨_, by rw [bitPairs, List.range_succ, List.map_append, List.map_singleton, List.foldl_concat]⟩

/-- Eight edges from position 0, where both queues have room, append the two bytes they present and leave the decoder as it
was, the counter 8 further. -/
theorem foldl_bitPairs {cap : Nat} {r : Rx} (x : Both Byte) (pos : r.pos = Both.same 0) (acc : r.acc = Both.same 0)
    (room : ∀ c, (r.q.get c).length < cap) : (bitPairs x).foldl (Rx.sample cap) r = { r with
      din := ⟨x.primary.getLsbD 7, x.secondary.getLsbD 7⟩, strobeIn := true, edgeCnt := r.edgeCnt + 8
      q := ⟨r.q.primary ++ [x.primary], r.q.secondary ++ [x.secondary]⟩ } := by
  have result : Assembled cap (fun c _ => x.get c) r 8 _ := assembled_foldl pos acc (presents_bitPairs x)
  obtain ⟨r', last⟩ := foldl_bitPairs_last cap r x
  refine Rx.eq_of_fields (last ▸ sample_din) (last ▸ sample_strobeIn) (Both.ext_get fun c => ?_)
    (Both.ext_get fun c => ?_) (Both.ext_get fun c => ?_) result.sel result.edgeCnt (Both.ext_get fun c => ?_) result.port
  · rw [result.acc, acc, Both.get_same]
    exact firstBits_zero _
  · rw [result.pos, pos, Both.get_same]
    rfl
  · rw [result.q, show min (8 / 8) (cap - (r.q.get c).length) = 1 from Nat.min_eq_left (Nat.sub_pos_of_lt (room c))]
    cases c <;> rfl
  · rw [result.dropCnt, show 8 / 8 - (cap - (r.q.get c).length) = 0 from
      Nat.sub_eq_zero_of_le (Nat.sub_pos_of_lt (room c)), BitVec.add_zero]

/-- The same as a run of EDGE lines, with the hypotheses as the statements write them. -/
theorem execAll_bitPairs {s : State} (x : Both Byte) (notLooped : s.cfg.loopback = false) (pos : s.rx.pos = ⟨0, 0⟩)
    (acc : s.rx.acc = ⟨0, 0⟩) (primary : (s.rx.q.get .primary).length < s.cfg.cap)
    (secondary : (s.rx.q.get .secondary).length < s.cfg.cap) :
    execAll (edgeLines (bitPairs x)) s = .next { s with
      rx := { s.rx with
        din := ⟨x.primary.getLsbD 7, x.secondary.getLsbD 7⟩, strobeIn := true, edgeCnt := s.rx.edgeCnt + 8
        q := ⟨s.rx.q.primary ++ [x.primary], s.rx.q.secondary ++ [x.secondary]⟩ } } := by
  have room : ∀ c, (s.rx.q.get c).length < s.cfg.cap
    | .primary => primary
    | .secondary => secondary
  rw [execAll_edgeLines notLooped, foldl_bitPairs x pos acc room]

/-- Settles O14: SENDBYTE presents its own bytes. -/
theorem sendByteIsAssembledUnchanged : Obligations.SendByteIsAssembledUnchanged :=
  fun x0 x1 _ => execAll_bitPairs ⟨x0, x1⟩

theorem getLsbD_reverse_of_lt (x : Byte) {i : Nat} (hi : i < 8) : x.reverse.getLsbD i = x.getLsbD (7 - i) := by
  rw [BitVec.getLsbD_reverse, BitVec.getMsbD_eq_getLsbD]
  simp [hi]

theorem sendByteMsbInstrs_eq (x0 x1 : Byte) :
    sendByteMsbInstrs x0 x1 = edgeLines (bitPairs ⟨x0.reverse, x1.reverse⟩) := by
  have bits : bitPairs ⟨x0.reverse, x1.reverse⟩ =
      (List.range 8).map fun i => ⟨x0.getLsbD (7 - i), x1.getLsbD (7 - i)⟩ := by
    refine List.map_congr_left fun i hi => ?_
    rw [getLsbD_reverse_of_lt x0 (List.mem_range.mp hi), getLsbD_reverse_of_lt x1 (List.mem_range.mp hi)]
  rw [bits]
  rfl

/-- Settles O15: SENDBYTE.MSB presents the reversed bytes, least-significant bit first. -/
theorem msbFirstReversesTheBits : Obligations.MsbFirstReversesTheBits := by
  intro x0 x1 s notLooped pos acc primary secondary
  have sent := execAll_bitPairs ⟨x0.reverse, x1.reverse⟩ notLooped pos acc primary secondary
  rw [← sendByteMsbInstrs_eq] at sent
  exact ⟨_, _, _, sent, rfl, fun i hi => ⟨getLsbD_reverse_of_lt x0 hi, getLsbD_reverse_of_lt x1 hi⟩⟩

/-! ### The shift register (41_edge_decoder.md R105) -/

theorem getLsbD_shiftIn_of_lt (sr : Byte) (b : Level) {j : Nat} (hj : j < 7) :
    (shiftIn sr b).getLsbD j = sr.getLsbD (j + 1) := by
  simp [shiftIn, BitVec.getLsbD_shiftLeft, hj, Nat.add_comm]

theorem getLsbD_shiftIn_seven (sr : Byte) (b : Level) : (shiftIn sr b).getLsbD 7 = b := by
  simp [shiftIn]

/-- Once full, the shift register holds the last eight levels, the latest on top, whatever it started at. -/
theorem getLsbD_foldl_shiftIn (sr : Byte) (bs : List Level) {j : Nat} (hj : j < 8) (full : 8 ≤ j + bs.length) :
    bs[j + bs.length - 8]? = some ((bs.foldl shiftIn sr).getLsbD j) := by
  induction bs using List.reverseRecOn generalizing j with
  | nil =>
    rw [List.length_nil] at full
    omega
  | append_singleton bs b ih =>
    rw [List.length_append, List.length_singleton] at full ⊢
    rw [List.foldl_concat]
    rcases Nat.lt_or_ge j 7 with lt | ge
    · have before := ih (j := j + 1) (by omega) (by omega)
      rw [getLsbD_shiftIn_of_lt _ _ lt, ← before, List.getElem?_append_left (by omega)]
      congr 1
      omega
    · obtain rfl : j = 7 := by omega
      rw [getLsbD_shiftIn_seven, show 7 + (bs.length + 1) - 8 = bs.length by omega]
      exact List.getElem?_concat_length

/-- Eight pairs of levels are the bits of what two shift registers hold after them. -/
theorem bitPairs_shiftRegisters {bs : List (Level × Level)} (eight : bs.length = 8) :
    bitPairs ⟨(bs.map Prod.fst).foldl shiftIn 0, (bs.map Prod.snd).foldl shiftIn 0⟩ = bs.map fun b => ⟨b.1, b.2⟩ := by
  have register : ∀ (f : Level × Level → Level) (i : Nat) (hi : i < bs.length),
      ((bs.map f).foldl shiftIn 0).getLsbD i = f bs[i] := fun f i hi => by
    have held := getLsbD_foldl_shiftIn 0 (bs.map f) (hi.trans_eq eight) (by simp [eight])
    rw [List.length_map, eight, Nat.add_sub_cancel, List.getElem?_map, List.getElem?_eq_getElem hi] at held
    exact (Option.some.inj held).symm
  refine List.ext_getElem (by simp [bitPairs, eight]) fun i _ hi => ?_
  rw [List.length_map] at hi
  simp only [bitPairs, List.getElem_map, List.getElem_range, register _ i hi]

/-- Settles O16: the bytes presented are what the two shift registers hold. -/
theorem shiftRegisterEmitsTheSameByte : Obligations.ShiftRegisterEmitsTheSameByte := by
  intro bs s eight notLooped pos acc primary secondary
  have sent := execAll_bitPairs ⟨(bs.map Prod.fst).foldl shiftIn 0, (bs.map Prod.snd).foldl shiftIn 0⟩ notLooped pos acc
    primary secondary
  rw [bitPairs_shiftRegisters eight, edgeLines, List.flatMap_map] at sent
  exact ⟨_, sent, rfl⟩

end Sys2Proof.Machine

/-! ## Proofs: the read interface (42_read_interface.md)

What an operand names, and an equation for each branch of the commands and of COMPLETE; the commands' obligations. Then what
the fetch finds where the port is idle and where a READ holds it, and how a pending READ goes on and ends. -/

namespace Sys2Proof.Machine

open Sys2Proof

/-! ### Channel operands (30_encoding.md R63) -/

theorem channelOperand_of_names {a : Arg} {c : Channel}
    (names : a.toNat = 0 ∧ c = .primary ∨ a.toNat = 1 ∧ c = .secondary) : channelOperand a = some c := by
  rcases names with ⟨zero, rfl⟩ | ⟨one, rfl⟩
  · obtain rfl : a = 0 := BitVec.eq_of_toNat_eq zero
    rfl
  · obtain rfl : a = 1 := BitVec.eq_of_toNat_eq one
    rfl

theorem channelOperand_of_two_le {a : Arg} (past : 2 ≤ a.toNat) : channelOperand a = none := by
  have notZero : a ≠ 0 := by
    rintro rfl
    simp at past
  have notOne : a ≠ 1 := by
    rintro rfl
    simp at past
  rw [channelOperand, if_neg notZero, if_neg notOne]

/-! ### The commands that select and observe (42_read_interface.md R119 to R124) -/

theorem exec_select_of_names {v : Arg} {c : Channel} (names : channelOperand v = some c) (s : State) :
    exec (.select v) s = answer 0 { s with rx := { s.rx with sel := c } } := by
  rw [exec, execSelect, names]

theorem exec_select_of_unnamed {v : Arg} (unnamed : channelOperand v = none) (s : State) :
    exec (.select v) s = fail .inval s := by
  rw [exec, execSelect, unnamed]

theorem exec_getCount_of_names {a : Arg} {c : Channel} (names : channelOperand a = some c) (s : State) :
    exec (.getCount a) s = answer (lengthValue (s.rx.q.get c).length) s := by
  rw [exec, execGetCount, names]

theorem exec_getCount_of_unnamed {a : Arg} (unnamed : channelOperand a = none) (s : State) :
    exec (.getCount a) s = fail .inval s := by
  rw [exec, execGetCount, unnamed]

theorem exec_getDrops_of_names {a : Arg} {c : Channel} (names : channelOperand a = some c) (s : State) :
    exec (.getDrops a) s = answer (s.rx.dropCnt.get c) s := by
  rw [exec, execGetDrops, names]

theorem exec_getDrops_of_unnamed {a : Arg} (unnamed : channelOperand a = none) (s : State) :
    exec (.getDrops a) s = fail .inval s := by
  rw [exec, execGetDrops, unnamed]

/-- Settles O22, by what the operand names. -/
theorem selectSetsTheChannel : Obligations.SelectSetsTheChannel := by
  intro v s
  refine ⟨fun zero => ?_, fun one => ?_, fun past => ?_⟩
  · rw [exec_select_of_names (channelOperand_of_names (.inl ⟨zero, rfl⟩)), answer_eq]
  · rw [exec_select_of_names (channelOperand_of_names (.inr ⟨one, rfl⟩)), answer_eq]
  · rw [exec_select_of_unnamed (channelOperand_of_two_le past), fail_eq]

/-- Settles O23: the word is the encoding of QUERY, which needs no transmitter. -/
theorem queryReturnsTheChannel : Obligations.QueryReturnsTheChannel := by
  have exec_query : ∀ s, exec .query s = answer (channelValue s.rx.sel) s := fun _ => rfl
  refine ⟨fun hasTx => decodeCommand_eq_ok_iff_encode.mpr ?_, fun s => ⟨fun primary => ?_, fun secondary => ?_⟩⟩
  · exact ⟨rfl, by cases hasTx <;> rfl⟩
  · rw [exec_query, primary, channelValue, answer_eq]
  · rw [exec_query, secondary, channelValue, answer_eq]

/-- Settles O24: a length that 32 bits cannot hold is answered with the free value. -/
theorem getCountReturnsTheLength : Obligations.GetCountReturnsTheLength := by
  intro a c s
  refine ⟨fun names fits => ?_, fun names _ => ⟨lengthValue (s.rx.q.get c).length, ?_⟩, fun past => ?_⟩
  · rw [exec_getCount_of_names (channelOperand_of_names names), lengthValue_of_lt fits, answer_eq]
  · rw [exec_getCount_of_names (channelOperand_of_names names), answer_eq]
  · rw [exec_getCount_of_unnamed (channelOperand_of_two_le past), fail_eq]

/-- Settles O25: the command answers the counter. -/
theorem getEdgesReturnsTheCounter : Obligations.GetEdgesReturnsTheCounter :=
  fun s => answer_eq s.rx.edgeCnt s

/-- Settles O26, by what the operand names. -/
theorem getDropsReturnsTheCounter : Obligations.GetDropsReturnsTheCounter := by
  intro a c s
  refine ⟨fun names => ?_, fun past => ?_⟩
  · rw [exec_getDrops_of_names (channelOperand_of_names names), answer_eq]
  · rw [exec_getDrops_of_unnamed (channelOperand_of_two_le past), fail_eq]

/-! ### READ, READ.NB, COMPLETE and CANCEL (42_read_interface.md R112 to R115) -/

theorem exec_read (n : Arg) (s : State) : exec (.read n) s = readCommand false n s := rfl

theorem exec_readNb (n : Arg) (s : State) : exec (.readNb n) s = readCommand true n s := rfl

theorem readCommand_zero (nb : Bool) (s : State) : readCommand nb 0 s = fail .precond s := rfl

theorem readCommand_of_data {n : Arg} {s : State} (positive : n ≠ 0) (data : s.rx.q.get s.rx.sel ≠ []) (nb : Bool) :
    readCommand nb n s = .next (deliver s.rx.sel n s) := by
  rw [readCommand, if_neg positive, if_pos (List.length_pos_iff.mpr data)]

theorem readCommand_of_empty {n : Arg} {s : State} (positive : n ≠ 0) (empty : s.rx.q.get s.rx.sel = []) (nb : Bool) :
    readCommand nb n s =
      if nb then fail .wouldBlock s else .next { s with rx := { s.rx with port := .pending s.rx.sel n } } := by
  rw [readCommand, if_neg positive, if_neg (by simp [empty])]

/-- Settles O19, by the branches of the shared read. -/
theorem readTakesFromTheSelectedQueue : Obligations.ReadTakesFromTheSelectedQueue := by
  rintro n s _ rfl
  simp only [exec_read, exec_readNb]
  refine ⟨?_, fun positive data => ?_, fun positive empty => ?_⟩
  · rintro rfl
    exact ⟨readCommand_zero false s, readCommand_zero true s⟩
  · rw [readCommand_of_data positive data, readCommand_of_data positive data, deliver_eq]
    exact ⟨rfl, rfl⟩
  · rw [readCommand_of_empty positive empty, readCommand_of_empty positive empty]
    exact ⟨rfl, rfl⟩

/-- COMPLETE is enabled for the READ that holds the port where its latched queue has data. -/
theorem completeEnabled_iff {s : State} {ch : Channel} {n : Arg} (pending : s.rx.port = .pending ch n) :
    completeEnabled s = true ↔ s.rx.q.get ch ≠ [] := by
  simp [completeEnabled, pending, List.length_pos_iff]

theorem not_completeEnabled_of_idle {s : State} (idle : s.rx.port = .idle) : ¬ completeEnabled s = true := by
  simp [completeEnabled, idle]

theorem not_completeEnabled_of_empty {s : State} {ch : Channel} {n : Arg} (pending : s.rx.port = .pending ch n)
    (empty : s.rx.q.get ch = []) : ¬ completeEnabled s = true :=
  fun enabled => (completeEnabled_iff pending).mp enabled empty

/-- The state after COMPLETE, field by field (42_read_interface.md R113). -/
theorem complete_eq {s : State} {ch : Channel} {n : Arg} (pending : s.rx.port = .pending ch n) :
    complete s = { s with
      rx := { s.rx with port := .idle, q := s.rx.q.set ch ((s.rx.q.get ch).drop (min n.toNat (s.rx.q.get ch).length)) }
      responses := s.responses ++ [⟨.ok, BitVec.ofNat 32 (min n.toNat (s.rx.q.get ch).length),
        (s.rx.q.get ch).take (min n.toNat (s.rx.q.get ch).length)⟩] } := by
  rw [complete_of_pending pending, deliver_eq]
  rfl

theorem rdcTurn_of_data {s : State} {ch : Channel} {n : Arg} (pending : s.rx.port = .pending ch n)
    (data : s.rx.q.get ch ≠ []) : rdcTurn s = complete s := if_pos ((completeEnabled_iff pending).mpr data)

theorem rdcTurn_of_empty {s : State} {ch : Channel} {n : Arg} (pending : s.rx.port = .pending ch n)
    (empty : s.rx.q.get ch = []) : rdcTurn s = s := if_neg (not_completeEnabled_of_empty pending empty)

theorem rdcTurn_of_idle {s : State} (idle : s.rx.port = .idle) : rdcTurn s = s :=
  if_neg (not_completeEnabled_of_idle idle)

/-- Settles O21, by whether a READ holds the port. -/
theorem cancelEndsThePendingRead : Obligations.CancelEndsThePendingRead := by
  refine ⟨decodeEvent_eq_ok_iff_encode.mpr rfl, fun s => ⟨fun ch n pending => ?_, fun idle => ?_⟩⟩
  · rw [exec, execCancel, pending]
    rfl
  · rw [exec, execCancel, idle]

/-! ### What the fetch finds, and the step it makes (42_read_interface.md R125) -/

theorem fetch_command {s : State} {w : Word} {rest : List Input} (hs : s.inputs = .command w :: rest)
    (idle : s.rx.port = .idle) : fetch s = present (.command w) { s with inputs := rest } := by
  unfold fetch
  rw [hs]
  exact if_pos idle

theorem fetch_rdc {s : State} {rest : List Input} (hs : s.inputs = .rdc :: rest) :
    fetch s = present .rdc { s with inputs := rest } := by
  unfold fetch
  rw [hs]

theorem fetch_nil {s : State} (hs : s.inputs = []) : fetch s = .settled (rdcTurn s) := by
  unfold fetch
  rw [hs]

theorem step_of_settled {s t : State} (h : fetch s = .settled t) : step s = .next t := by
  rw [step, h]

theorem step_of_present_command {s t : State} {w : Word} {i : Instr} (h : fetch s = present (.command w) t)
    (decodes : decodeCommand t.cfg.hasTx w = .ok i) : step s = exec i t := by
  simp only [step, h, present, decodes]

theorem step_of_present_event {s t : State} {e : BitVec 8} {i : Instr} (h : fetch s = present (.event e) t)
    (decodes : decodeEvent e = .ok i) : step s = exec i t := by
  simp only [step, h, present, decodes]

theorem step_of_present_reservedEvent {s t : State} {e : BitVec 8} {r : Reject} (h : fetch s = present (.event e) t)
    (reserved : decodeEvent e = .error r) : step s = .refused .reservedEvent := by
  simp only [step, h, present, reserved]

/-- Settles O8, by the port the word arrives at. -/
theorem stepRunsTheDecodedInstruction : Obligations.StepRunsTheDecodedInstruction :=
  fun _ _ _ => ⟨fun _ hs idle decodes => step_of_present_command (fetch_command hs idle) decodes,
    fun _ hs decodes => step_event_of_ok hs decodes⟩

/-- Where RDC moves next, or no input is left, the step is RDC's turn. -/
theorem step_rdcTurn {s : State} {rest : List Input} (turn : s.inputs = .rdc :: rest ∨ s.inputs = [] ∧ rest = []) :
    step s = .next (rdcTurn { s with inputs := rest }) := by
  rcases turn with first | ⟨atEnd, rfl⟩
  · exact step_of_settled (fetch_rdc first)
  · have same : { s with inputs := [] } = s := by rw [← atEnd]
    rw [same]
    exact step_of_settled (fetch_nil atEnd)

/-- Settles O20, by what RDC's turn does in each state of the port. -/
theorem completeAnswersThePendingRead : Obligations.CompleteAnswersThePendingRead := by
  intro s rest turn
  rw [step_rdcTurn turn]
  refine ⟨?_, fun ch n pending empty => ?_, fun idle => ?_⟩
  · rintro ch n _ pending rfl data
    have answers := rdcTurn_of_data (s := { s with inputs := rest }) pending data
    exact congrArg Host.Outcome.next (answers.trans (complete_eq pending))
  · rw [rdcTurn_of_empty (s := { s with inputs := rest }) pending empty]
  · rw [rdcTurn_of_idle (s := { s with inputs := rest }) idle]

/-! ### Commands that find the port held (42_read_interface.md R125, 20_memory.md R52) -/

section

variable {s : State} {w : Word} {rest : List Input} {ch : Channel} {n : Arg}

theorem fetch_held_of_data (hs : s.inputs = .command w :: rest) (pending : s.rx.port = .pending ch n)
    (data : s.rx.q.get ch ≠ []) : fetch s = .settled (complete s) := by
  rw [fetch_held hs (by simp [pending]), if_pos ((completeEnabled_iff pending).mpr data)]

/-- The first input that does not come from HOST overtakes the waiting commands. -/
theorem fetch_held_of_env {x : Input} {others : List Input} (hs : s.inputs = .command w :: rest)
    (pending : s.rx.port = .pending ch n) (empty : s.rx.q.get ch = []) (env : firstOfEnv rest = some (x, others)) :
    fetch s = present x { s with inputs := .command w :: others } := by
  rw [fetch_held hs (by simp [pending]), if_neg (not_completeEnabled_of_empty pending empty), env]

theorem fetch_held_of_commands (hs : s.inputs = .command w :: rest) (pending : s.rx.port = .pending ch n)
    (empty : s.rx.q.get ch = []) (commands : firstOfEnv rest = none) : fetch s = .settled s := by
  rw [fetch_held hs (by simp [pending]), if_neg (not_completeEnabled_of_empty pending empty), commands]

end

/-- Settles O9, by what the fetch of a held command finds. -/
theorem commandsWaitWhileThePortIsHeld : Obligations.CommandsWaitWhileThePortIsHeld := by
  rintro s w ws ch n _ pending rfl
  refine ⟨fun rest data hs => ?_, fun e rest empty hs => ?_, fun rest empty hs => ?_, fun empty hs => ?_⟩
  · rw [step_of_settled (fetch_held_of_data hs pending data), complete_eq pending]
  · have env := fetch_held_of_env hs pending empty (firstOfEnv_append ws (.event e :: rest))
    exact ⟨fun _ decodes => step_of_present_event env decodes,
      fun _ reserved => step_of_present_reservedEvent env reserved⟩
  · have env := fetch_held_of_env hs pending empty (firstOfEnv_append ws (.rdc :: rest))
    have passes := rdcTurn_of_empty (s := { s with inputs := .command w :: (ws.map .command ++ rest) }) pending empty
    exact (step_of_settled env).trans (congrArg Host.Outcome.next passes)
  · exact step_of_settled (fetch_held_of_commands hs pending empty (firstOfEnv_commands ws))

/-! ### What a step does to a pending READ (42_read_interface.md R116, R127) -/

@[simp] theorem setStrobe_sel (cap : Nat) (v : Level) (r : Rx) : (setStrobe cap v r).sel = r.sel := by
  obtain ⟨_, _, hsel, _⟩ := edge_other cap r
  rcases setStrobe_cases cap v r with h | h <;> rw [h]
  exact hsel

@[simp] theorem propagateIfLooped_port (s : State) : (propagateIfLooped s).rx.port = s.rx.port := by
  rw [propagateIfLooped_eq]
  dsimp only
  split
  · rw [propagate_eq, setStrobe_port]
  · rfl

@[simp] theorem propagateIfLooped_sel (s : State) : (propagateIfLooped s).rx.sel = s.rx.sel := by
  rw [propagateIfLooped_eq]
  dsimp only
  split
  · rw [propagate_eq, setStrobe_sel]
  · rfl

/-- The ways one step takes a READ of n bytes that waits on channel ch: from the receiver x and the record of responses xs
to y and ys. While it waits the queues only grow. -/
inductive PendingMove (ch : Channel) (n : Arg) (x : Rx) (xs : List Response) (y : Rx) (ys : List Response) : Prop where
  | waits (port : y.port = x.port) (sel : y.sel = x.sel) (queues : ∀ c, x.q.get c <+: y.q.get c) (silent : ys = xs)
  | completes (idle : y.port = .idle) (data : x.q.get ch ≠ [])
      (rest : y.q.get ch = (x.q.get ch).drop (readLength ch n x))
      (response : ys = xs ++ [⟨.ok, BitVec.ofNat 32 (readLength ch n x), (x.q.get ch).take (readLength ch n x)⟩])
  | cancels (idle : y.port = .idle) (queues : y.q = x.q) (response : ys = xs ++ [⟨.restart, 0, []⟩])
  | resets (reset : y = rxReset x) (silent : ys = xs)

section

variable {ch : Channel} {n : Arg}

theorem isPrefix_of_same_or_append {q q' : List Byte} (h : q' = q ∨ ∃ b, q' = q ++ [b]) : q <+: q' := by
  rcases h with rfl | ⟨b, rfl⟩
  · exact ⟨[], List.append_nil _⟩
  · exact ⟨[b], rfl⟩

/-- A silent operation that leaves the port and SEL alone and only appends to a queue keeps the READ waiting. -/
theorem PendingMove.of_same_or_append {x y : Rx} {xs ys : List Response} (port : y.port = x.port) (sel : y.sel = x.sel)
    (queues : ∀ c, y.q.get c = x.q.get c ∨ ∃ b, y.q.get c = x.q.get c ++ [b]) (silent : ys = xs) :
    PendingMove ch n x xs y ys :=
  .waits port sel (fun c => isPrefix_of_same_or_append (queues c)) silent

theorem PendingMove.of_same {x : Rx} {xs : List Response} : PendingMove ch n x xs x xs :=
  .of_same_or_append rfl rfl (fun _ => .inl rfl) rfl

/-- The agents other than HOST go on while the READ waits: only CANCEL and RESET end it. -/
theorem exec_event_pendingMove {i : Instr} {e : BitVec 8} {s t : State} (event : encode i = .event e)
    (h : exec i s = .next t) : PendingMove ch n s.rx s.responses t.rx t.responses := by
  cases exec_effect h with
  | nothing | counts => exact .of_same
  | setsDin => exact .of_same_or_append rfl rfl (fun _ => .inl rfl) rfl
  | setsStrobe v =>
    exact .of_same_or_append (setStrobe_port ..) (setStrobe_sel ..) (setStrobe_q_cases _ v s.rx) rfl
  | enters =>
    exact .of_same_or_append (propagateIfLooped_port _) (propagateIfLooped_sel _) (propagateIfLooped_q_cases _)
      (propagateIfLooped_responses _)
  | cancels => exact .cancels rfl rfl rfl
  | resets => exact .resets rfl rfl
  | responds _ _ isCommand =>
    obtain ⟨w, hw⟩ := isCommand
    cases event.symm.trans hw
  | delivers _ isCommand | loads _ _ isCommand => rcases isCommand with rfl | rfl <;> cases event
  | pends _ isCommand | selects _ _ isCommand | setsPeriod _ isCommand | starts _ isCommand | stops isCommand =>
    subst isCommand
    cases event

theorem rdcTurn_pendingMove {s : State} (pending : s.rx.port = .pending ch n) :
    PendingMove ch n s.rx s.responses (rdcTurn s).rx (rdcTurn s).responses := by
  by_cases empty : s.rx.q.get ch = []
  · rw [rdcTurn_of_empty pending empty]
    exact .of_same
  · rw [rdcTurn_of_data pending empty, complete_eq pending]
    exact .completes rfl empty (Both.get_set_same ..) rfl

theorem step_pendingMove {s t : State} (pending : s.rx.port = .pending ch n) (h : step s = .next t) :
    PendingMove ch n s.rx s.responses t.rx t.responses := by
  have held : s.rx.port ≠ .idle := by simp [pending]
  rcases step_next h with ⟨i, xs, source, hexec⟩ | ⟨idle, _⟩ | ⟨xs, rfl⟩
  · obtain ⟨e, event⟩ := source.resolve_left held
    exact exec_event_pendingMove (s := { s with inputs := xs }) event hexec
  · exact absurd idle held
  · exact rdcTurn_pendingMove (s := { s with inputs := xs }) pending

end

/-- Settles O52: while the READ waits, the data in its queue stays. -/
theorem completeStaysEnabled : Obligations.CompleteStaysEnabled := by
  intro s t enabled h
  obtain ⟨ch, n, pending, dav⟩ := (completeEnabled_iff_dav s).mp enabled
  cases step_pendingMove pending h with
  | waits port _ queues =>
    have dav' : t.dav ch = true := (dav_iff t ch).mpr (((dav_iff s ch).mp dav).trans_le (queues ch).length_le)
    exact .inl ⟨(completeEnabled_iff_dav t).mpr ⟨ch, n, port.trans pending, dav'⟩, port⟩
  | completes idle | cancels idle => exact .inr idle
  | resets reset => exact .inr (congrArg Rx.port reset)

/-- Settles O53, by the moves of a pending READ over a step. -/
theorem pendingReadEndsInOneOfThreeWays : Obligations.PendingReadEndsInOneOfThreeWays := by
  intro s t ch n pending positive h
  cases step_pendingMove pending h with
  | waits port sel _ silent => exact .inl ⟨port.trans pending, silent, sel⟩
  | completes idle data rest response =>
    exact .inr (.inl ⟨idle, readLength ch n s.rx, readLength_pos positive data, Nat.min_le_left _ _,
      readLength_le ch n s.rx, rest, response⟩)
  | cancels idle queues response => exact .inr (.inr (.inl ⟨idle, queues, response⟩))
  | resets reset silent => exact .inr (.inr (.inr ⟨reset, silent⟩))

end Sys2Proof.Machine

/-! ## Proofs: no traps (60_exceptions.md R128)

What a failing command leaves; then that TxRead always has a value where the sequencer reads, so that every instruction is
performed or refused. -/

namespace Sys2Proof.Machine

open Sys2Proof

/-! ### Failures (60_exceptions.md R147) -/

/-- What an instruction answers: nothing, OK or the RESTART of a cancelled READ, or a failure that changes nothing else. -/
theorem exec_answer_cases {i : Instr} {s t : State} (h : exec i s = .next t) :
    t.responses = s.responses ∨
    (∃ r : Response, (r.st = .ok ∨ r.st = .restart) ∧ t.responses = s.responses ++ [r]) ∨
    ∃ st, t = s.failed st := by
  cases exec_effect h with
  | nothing | pends | setsDin | setsStrobe | resets | counts => exact .inl rfl
  | enters => exact .inl (propagateIfLooped_responses _)
  | responds st v _ failed =>
    by_cases ok : st = .ok
    · exact .inr (.inl ⟨_, .inl ok, rfl⟩)
    · rw [failed ok]
      exact .inr (.inr ⟨st, rfl⟩)
  | delivers | selects | loads | setsPeriod | stops => exact .inr (.inl ⟨_, .inl rfl, rfl⟩)
  | starts => exact .inr (.inl ⟨_, .inl rfl, propagateIfLooped_responses _⟩)
  | cancels => exact .inr (.inl ⟨_, .inr rfl, rfl⟩)

/-- Settles O49, by what an instruction answers. -/
theorem failingCommandsChangeNothing : Obligations.FailingCommandsChangeNothing := by
  intro i s t r h delivered notOk notRestart
  rcases exec_answer_cases h with silent | ⟨r', succeeds, appended⟩ | ⟨st, rfl⟩
  · simp [delivered] at silent
  · obtain rfl : r = r' := by simpa using delivered.symm.trans appended
    rcases succeeds with ok | restart
    · exact absurd ok notOk
    · exact absurd restart notRestart
  · obtain rfl : ⟨st, 0, []⟩ = r := by simpa using delivered
    rfl

/-! ### The sequencer reads inside the buffers (20_memory.md R43) -/

/-- EnterSetup has a value at every index of two buffers of one length. -/
theorem enterSetup_of_inRange {cfg : Config} {k : Nat} {t : Tx}
    (same : (t.buf.get .secondary).length = (t.buf.get .primary).length) (inRange : k < (t.buf.get .primary).length)
    (i : BitVec 3) : ∃ u, enterSetup cfg k i t = some u :=
  ⟨_, enterSetup_of_read (List.getElem?_eq_getElem inRange) (List.getElem?_eq_getElem (inRange.trans_eq same.symm))⟩

/-- A loaded transmitter has a next phase: after GAP the sample index wraps to one in range (40_transmitter.md R91). -/
theorem nextPhase_of_loaded {t : Tx} (loaded : t.Loaded) (cfg : Config) : ∃ u, nextPhase cfg t = some u := by
  cases ph : t.ph with
  | setup => exact ⟨_, nextPhase_of_setup ph⟩
  | pulse => exact ⟨_, nextPhase_of_pulse ph⟩
  | dead =>
    by_cases more : t.i.toNat < 7
    · rw [nextPhase_of_dead ph more]
      exact enterSetup_of_inRange loaded.sameLength loaded.inRange _
    · exact ⟨_, nextPhase_of_lastDead ph (by omega)⟩
  | gap =>
    rw [nextPhase_of_gap ph]
    exact enterSetup_of_inRange (t := { t with k := (t.k + 1) % (t.buf.get .primary).length }) loaded.sameLength
      (Nat.mod_lt _ (Nat.zero_lt_of_lt loaded.inRange)) _

/-! ### Every instruction is performed or refused -/

theorem exists_next_ite {c : Prop} [Decidable c] {r r' : Result} (h : ∃ t, r = .next t) (h' : ∃ t, r' = .next t) :
    ∃ t, (if c then r else r') = .next t := by
  split
  · exact h
  · exact h'

theorem exists_next_fail (st : Status) (s : State) : ∃ t, fail st s = .next t := ⟨_, rfl⟩

theorem exists_next_answer (v : Word) (s : State) : ∃ t, answer v s = .next t := ⟨_, rfl⟩

theorem exists_next_readCommand (nb : Bool) (n : Arg) (s : State) : ∃ t, readCommand nb n s = .next t :=
  exists_next_ite (exists_next_fail ..)
    (exists_next_ite ⟨_, rfl⟩ (exists_next_ite (exists_next_fail ..) ⟨_, rfl⟩))

theorem exists_next_txLoad (c : Channel) (b : Byte) (s : State) : ∃ t, txLoad c b s = .next t :=
  exists_next_ite (exists_next_fail ..)
    (exists_next_ite (exists_next_fail ..) (exists_next_ite (exists_next_fail ..) (exists_next_answer ..)))

/-- Past its checks a TX_START reads sample 0 of two buffers that both hold one (40_transmitter.md R87). -/
theorem exists_next_txStart (s : State) : ∃ t, exec .txStart s = .next t := by
  rw [exec, execTxStart]
  refine exists_next_ite (exists_next_fail ..) (exists_next_ite (exists_next_fail ..) ?_)
  split
  · exact exists_next_fail ..
  · rename_i same
    split
    · exact exists_next_fail ..
    · rename_i nonempty
      refine exists_next_ite (exists_next_fail ..) ?_
      obtain ⟨u, setup⟩ := enterSetup_of_inRange (cfg := s.cfg)
        (t := { s.tx with run := true, oe := true, k := 0 }) (not_not.mp same) (Nat.pos_of_ne_zero nonempty) 0
      rw [setup]
      exact ⟨_, rfl⟩

/-- A TICK of a running transmitter finds TX_TMR ≥ 1 and, at the end of a phase, a next one (40_transmitter.md R91). -/
theorem exists_next_tick {s : State} (running : s.tx.run = true → s.tx.Running s.cfg) : ∃ t, exec .tick s = .next t := by
  by_cases idle : s.cfg.hasTx = false ∨ s.tx.run = false
  · exact ⟨_, tick_of_idle idle⟩
  · obtain ⟨hasTx, run⟩ : s.cfg.hasTx = true ∧ s.tx.run = true := by simpa using idle
    have timer := (running run).timerLow
    rcases Nat.lt_or_ge s.tx.tmr 2 with last | more
    · have loaded : Tx.Loaded { s.tx with tmr := 0 } := { (running run).loaded with }
      obtain ⟨u, next⟩ := nextPhase_of_loaded loaded s.cfg
      exact ⟨_, tick_of_last hasTx run (by omega) next⟩
    · exact ⟨_, tick_of_more hasTx run more⟩

/-- An event of a line that only the wiring may drive is refused, and nothing else stops an instruction (40_transmitter.md
R96). -/
theorem exec_next_or_refused {s : State} (running : s.tx.run = true → s.tx.Running s.cfg) (i : Instr) :
    (∃ t, exec i s = .next t) ∨ exec i s = .refused .lineDrivenByLoopback ∧ s.cfg.loopback = true := by
  cases i with
  | setDin ch v =>
    cases loop : s.cfg.loopback with
    | false => exact .inl ⟨_, exec_setDin loop ch v⟩
    | true => exact .inr ⟨exec_setDin_of_looped loop ch v, rfl⟩
  | setStrobe v =>
    cases loop : s.cfg.loopback with
    | false => exact .inl ⟨_, exec_setStrobe loop v⟩
    | true => exact .inr ⟨exec_setStrobe_of_looped loop v, rfl⟩
  | read n => exact .inl (exists_next_readCommand false n s)
  | readNb n => exact .inl (exists_next_readCommand true n s)
  | select v | getCount v | getDrops v =>
    simp only [exec, execSelect, execGetCount, execGetDrops]
    split
    · exact .inl (exists_next_fail ..)
    · exact .inl (exists_next_answer ..)
  | query | getEdges => exact .inl (exists_next_answer ..)
  | txLoadP b => exact .inl (exists_next_txLoad .primary b s)
  | txLoadS b => exact .inl (exists_next_txLoad .secondary b s)
  | txPeriod p =>
    exact .inl (exists_next_ite (exists_next_fail ..)
      (exists_next_ite (exists_next_fail ..) (exists_next_ite (exists_next_fail ..) (exists_next_answer ..))))
  | txStart => exact .inl (exists_next_txStart s)
  | txStop => exact .inl (exists_next_ite (exists_next_fail ..) (exists_next_answer ..))
  | txQuery sel =>
    exact .inl (exists_next_ite (exists_next_fail ..) (exists_next_ite (exists_next_answer ..)
      (exists_next_ite (exists_next_answer ..) (exists_next_ite (exists_next_answer ..)
        (exists_next_ite (exists_next_answer ..) (exists_next_fail ..))))))
  | cancel =>
    rw [exec, execCancel]
    split <;> exact .inl ⟨_, rfl⟩
  | reset => exact .inl ⟨_, rfl⟩
  | tick => exact .inl (exists_next_tick running)

/-- A step is performed, or refused on one of the two grounds of the spec (30_encoding.md R74, 40_transmitter.md R96). -/
theorem step_next_or_refused {s : State} (running : s.tx.run = true → s.tx.Running s.cfg) :
    (∃ t, step s = .next t) ∨
    ∃ r, step s = .refused r ∧ (r = .reservedEvent ∨ r = .lineDrivenByLoopback ∧ s.cfg.loopback = true) := by
  rw [step]
  rcases fetch_cases s with ⟨i, xs, _, found⟩ | ⟨_, xs, found⟩ | ⟨xs, found⟩ | found <;> rw [found]
  · rcases exec_next_or_refused (s := { s with inputs := xs }) running i with performed | ⟨refused, loop⟩
    · exact .inl performed
    · exact .inr ⟨_, refused, .inr ⟨rfl, loop⟩⟩
  · exact .inl ⟨_, rfl⟩
  · exact .inl ⟨_, rfl⟩
  · exact .inr ⟨_, rfl, .inl rfl⟩

/-- Settles O46: of the invariant only the clause about a running transmitter is needed. -/
theorem nothingTraps : Obligations.NothingTraps := by
  intro s inv
  rcases step_next_or_refused inv.txLegal.running with ⟨t, performed⟩ | ⟨r, refused, ground⟩
  · rw [performed]
    exact ⟨fun _ => nofun, fun _ => nofun⟩
  · rw [refused]
    refine ⟨fun _ => nofun, ?_⟩
    rintro _ ⟨⟩
    exact ground

end Sys2Proof.Machine

/-! ## Proofs: power-on and RESET (70_reset_and_hazards.md R148 to R150)

The state at power-on and what RESET leaves; then that a state with no running transmitter, as both leave it, accepts every
instruction but a line event that the loopback wiring keeps from ENV. -/

namespace Sys2Proof.Machine

open Sys2Proof

/-! ### Power-on (70_reset_and_hazards.md R148) -/

/-- Settles O37: the values are those that the definitions of the power-on state write. -/
theorem powerOnValues : Obligations.PowerOnValues := by
  refine ⟨⟨Config.bench, rfl⟩, ?_⟩
  rintro c _ rfl
  simp [State.powerOn, Rx.powerOn, Tx.powerOn, Both.same]

theorem powerOn_txLegal (cfg : Config) : Tx.powerOn.Legal cfg where
  buffersFit := buffersFit_of_empty rfl
  running := nofun
  resting _ := ⟨rfl, rfl, rfl, rfl, rfl, rfl, rfl⟩
  absent _ := rfl

theorem powerOn_inv {cfg : Config} (legal : cfg.Legal) : (State.powerOn cfg).Inv where
  cfgLegal := legal
  accClear := powerOn_accClear
  posEqual := rfl
  posCounts := powerOn_posCounts
  queuesFit := powerOn_queuesFit cfg.cap
  portLegal := nofun
  txLegal := powerOn_txLegal cfg
  linesLooped := linesLooped_of_released rfl

/-- Settles O45: State.reset is power-on at parameters that are legal. -/
theorem powerOnHasTheInvariant : Obligations.PowerOnHasTheInvariant :=
  ⟨fun _ => powerOn_inv, powerOn_inv (by decide)⟩

/-! ### RESET (70_reset_and_hazards.md R149) -/

/-- RESET clears the receiver but for its line levels. -/
theorem rxReset_eq (r : Rx) : rxReset r = { Rx.powerOn with din := r.din, strobeIn := r.strobeIn } := rfl

/-- What TX_STOP keeps of the transmitter is PERIOD, which RESET clears too. -/
theorem txReset_eq (t : Tx) : txReset t = Tx.powerOn := rfl

theorem exec_reset_of_hasTx {s : State} (hasTx : s.cfg.hasTx = true) : exec .reset s = .next { s with
    rx := { Rx.powerOn with din := s.rx.din, strobeIn := s.rx.strobeIn }, tx := Tx.powerOn } := by
  rw [exec, execReset, if_pos hasTx, rxReset_eq, txReset_eq]

theorem exec_reset_of_absent {s : State} (absent : s.cfg.hasTx = false) : exec .reset s = .next { s with
    rx := { Rx.powerOn with din := s.rx.din, strobeIn := s.rx.strobeIn } } := by
  rw [exec, execReset, if_neg (ne_true_of_eq_false absent), rxReset_eq]

/-- Settles O38, with a transmitter and without. -/
theorem resetKeepsOnlyTheLineLevels : Obligations.ResetKeepsOnlyTheLineLevels :=
  ⟨decodeEvent_eq_ok_iff_encode.mpr rfl, fun _ => ⟨exec_reset_of_hasTx, exec_reset_of_absent⟩⟩

/-- RESET is performed at every state, keeps the parameters and leaves no running transmitter. -/
theorem exists_next_reset (s : State) :
    ∃ t, exec .reset s = .next t ∧ t.cfg = s.cfg ∧ (t.cfg.hasTx = false ∨ t.tx.run = false) := by
  cases hasTx : s.cfg.hasTx with
  | true => exact ⟨_, exec_reset_of_hasTx hasTx, rfl, .inr rfl⟩
  | false => exact ⟨_, exec_reset_of_absent hasTx, rfl, .inl hasTx⟩

/-! ### What is accepted (70_reset_and_hazards.md R150) -/

/-- Under LOOPBACK only the wiring drives the receiver's lines: ENV performs neither SET_DIN nor SET_STROBE
(40_transmitter.md R96). -/
def WiringAdmits (cfg : Config) (i : Instr) : Prop :=
  cfg.loopback = false ∨ (∀ c v, i ≠ .setDin c v) ∧ ∀ v, i ≠ .setStrobe v

/-- A command whose operand names a channel is answered whatever the operand names. -/
theorem exists_next_channelOperand {i : Instr} {a : Arg} (operand : i = .select a ∨ i = .getCount a ∨ i = .getDrops a)
    (s : State) : ∃ t, exec i s = .next t := by
  rcases operand with rfl | rfl | rfl <;> simp only [exec, execSelect, execGetCount, execGetDrops]
  all_goals cases channelOperand a <;> exact ⟨_, rfl⟩

/-- TICK aside, what the wiring admits is performed at every state: it names no fault, or only past checks that rule the
fault out. -/
theorem exists_next_of_admitted {i : Instr} {s : State} (admitted : WiringAdmits s.cfg i) (notTick : i ≠ .tick) :
    ∃ t, exec i s = .next t := by
  cases i with
  | setDin ch v =>
    rcases admitted with notLooped | ⟨notDin, _⟩
    · exact ⟨_, exec_setDin notLooped ch v⟩
    · exact absurd rfl (notDin ch v)
  | setStrobe v =>
    rcases admitted with notLooped | ⟨_, notStrobe⟩
    · exact ⟨_, exec_setStrobe notLooped v⟩
    · exact absurd rfl (notStrobe v)
  | read n => exact exists_next_readCommand false n s
  | readNb n => exact exists_next_readCommand true n s
  | select a => exact exists_next_channelOperand (.inl rfl) s
  | getCount a => exact exists_next_channelOperand (.inr (.inl rfl)) s
  | getDrops a => exact exists_next_channelOperand (.inr (.inr rfl)) s
  | query | getEdges => exact exists_next_answer ..
  | txLoadP b => exact exists_next_txLoad .primary b s
  | txLoadS b => exact exists_next_txLoad .secondary b s
  | txPeriod p =>
    exact exists_next_ite (exists_next_fail ..)
      (exists_next_ite (exists_next_fail ..) (exists_next_ite (exists_next_fail ..) (exists_next_answer ..)))
  | txStart => exact exists_next_txStart s
  | txStop => exact exists_next_ite (exists_next_fail ..) (exists_next_answer ..)
  | txQuery sel =>
    exact exists_next_ite (exists_next_fail ..) (exists_next_ite (exists_next_answer ..)
      (exists_next_ite (exists_next_answer ..) (exists_next_ite (exists_next_answer ..)
        (exists_next_ite (exists_next_answer ..) (exists_next_fail ..)))))
  | cancel =>
    rw [exec, execCancel]
    split <;> exact ⟨_, rfl⟩
  | reset => exact ⟨_, rfl⟩
  | tick => exact absurd rfl notTick

/-- Where no transmitter is running, all that the wiring admits is performed. -/
theorem exists_next_of_idle {i : Instr} {s : State} (admitted : WiringAdmits s.cfg i)
    (idle : s.cfg.hasTx = false ∨ s.tx.run = false) : ∃ t, exec i s = .next t := by
  by_cases isTick : i = .tick
  · exact ⟨s, isTick ▸ tick_of_idle idle⟩
  · exact exists_next_of_admitted admitted isTick

/-- Settles O39: neither at power-on nor after RESET is a transmitter running. -/
theorem everythingIsAcceptedAfterReset : Obligations.EverythingIsAcceptedAfterReset := by
  intro i s admitted
  obtain ⟨t, resets, cfg, idle⟩ := exists_next_reset s
  obtain ⟨u, accepted⟩ := exists_next_of_idle (cfg.symm ▸ admitted) idle
  exact ⟨exists_next_of_idle (s := State.powerOn s.cfg) admitted (.inr rfl), t, u, resets, accepted⟩

end Sys2Proof.Machine
